-- ==== Sys2Proof/Word.lean ====
section
/-! DEFINITION. The word types of QOI-CDRE (spec/00_scope.md R11): bytes, the 32-bit header fields, the 64-bit error fields. -/

namespace Sys2Proof

/-- `u8` of R11: one byte of IN, one channel of a pixel. -/
abbrev Byte := BitVec 8

/-- `u32` of R11: HDR.width and HDR.height (R28). -/
abbrev U32 := BitVec 32

/-- The width of ERR.expected and ERR.found (R32). -/
abbrev U64 := BitVec 64

end Sys2Proof
end

