-- ==== Sys2Proof/Syntax.lean ====
section
/-! DEFINITION. The records of the container, one constructor per row of spec/opcode_table.json. -/

namespace Sys2Proof

/-- A decoded record (R80): the source's Chunk, which R26 calls the chunk latch, with the header and the end marker beside it.
Operands are the DENOTED values of R26 and R99: every bias is already removed, deltas are mathematical integers (R126). -/
inductive Instr where
  /-- HDR w, h, c, s (R81). -/
  | hdr (width height : U32) (channels colorspace : Byte)
  /-- END (R82). -/
  | endMark
  /-- RGB r, g, b (R83). -/
  | rgb (r g b : Byte)
  /-- RGBA r, g, b, a (R84). -/
  | rgba (r g b a : Byte)
  /-- INDEX i, a slot number 0..63 (R85). -/
  | index (i : Fin 64)
  /-- DIFF dr, dg, db, each -2..1 (R87). -/
  | diff (dr dg db : Int)
  /-- LUMA dg, dr_minus_dg, db_minus_dg: -32..31, -8..7, -8..7 (R88). -/
  | luma (dg drMinusDg dbMinusDg : Int)
  /-- RUN n, 1..62 (R89). -/
  | run (n : Nat)
  deriving DecidableEq, Repr

/-- Is the record one of the six chunk variants (R19)? -/
def Instr.isChunk : Instr → Bool
  | .hdr _ _ _ _ => false
  | .endMark => false
  | .rgb _ _ _ => true
  | .rgba _ _ _ _ => true
  | .index _ => true
  | .diff _ _ _ => true
  | .luma _ _ _ => true
  | .run _ => true

end Sys2Proof
end

