-- ==== Sys2Proof/WellFormed.lean ====
section
/-! DEFINITION. Which records the container can carry: the operand ranges of spec/10_state.md R26 and spec/30_encoding.md R99. -/

namespace Sys2Proof

/-- A DIFF delta denotes -2..1 (R87). -/
def diffDeltaOk (d : Int) : Bool := decide (-2 ≤ d) && decide (d ≤ 1)

/-- The green delta of LUMA denotes -32..31 (R88). -/
def lumaGreenOk (d : Int) : Bool := decide (-32 ≤ d) && decide (d ≤ 31)

/-- The red and blue fields of LUMA denote -8..7 (R88). -/
def lumaSideOk (d : Int) : Bool := decide (-8 ≤ d) && decide (d ≤ 7)

/-- A run length is 1..62 (R89, R94). -/
def runLengthOk (n : Nat) : Bool := decide (1 ≤ n) && decide (n ≤ 62)

/-- The check of one record. The ranges of the byte and slot operands are in their types. -/
def Instr.wf : Instr → Bool
  | .hdr _ _ _ _ => true
  | .endMark => true
  | .rgb _ _ _ => true
  | .rgba _ _ _ _ => true
  | .index _ => true
  | .diff dr dg db => diffDeltaOk dr && diffDeltaOk dg && diffDeltaOk db
  | .luma dg drg dbg => lumaGreenOk dg && lumaSideOk drg && lumaSideOk dbg
  | .run n => runLengthOk n

/-- A record the container can carry. -/
abbrev Instr.WellFormed (i : Instr) : Prop := i.wf = true

end Sys2Proof
end

