-- ==== Sys2Proof/Decode.lean ====
section
/-! DEFINITION. From bytes to records and back: spec/30_encoding.md, spec/40_header.md, spec/41_chunk_decode.md and the test
order of spec/42_stream_sequencer.md R141. The decoder is total on any bytes: it gives a record or rejects by name. -/

namespace Sys2Proof

/-- `bits[hi:lo]` of R12 over one byte: bits hi down to lo as an unsigned integer, bit 7 the first bit read (R9). -/
def bits (b : Byte) (hi lo : Nat) : Nat := b.toNat / 2 ^ lo % 2 ^ (hi + 1 - lo)

/-- The sum of `MemRead` in R12: the bytes as one unsigned big-endian integer (R10, R53). -/
def beNat : List Byte → Nat
  | [] => 0
  | b :: bs => b.toNat * 256 ^ bs.length + beNat bs

/-- The low `n` bytes of `w`, the least significant first. -/
def leBytes : Nat → Nat → List Byte
  | 0, _ => []
  | n + 1, w => BitVec.ofNat 8 w :: leBytes n (w / 256)

/-- `w` as `n` bytes, the most significant first (R10). -/
def beBytes (n w : Nat) : List Byte := (leBytes n w).reverse

/-- The magic `q o i f` of R81 as one big-endian number. -/
def magicNumber : Nat := 0x716F6966

/-- The magic as bytes (R81, R112). -/
def magicBytes : List Byte := [0x71, 0x6F, 0x69, 0x66]

/-- The end marker (R82). -/
def endMarkerBytes : List Byte := [0, 0, 0, 0, 0, 0, 0, 1]

/-- The six chunk variants (R19). -/
inductive Variant where
  | rgb | rgba | index | diff | luma | run
  deriving DecidableEq, Repr

/-- The dispatch table `Variant(b)` of R90, keyed on the full leading byte; FE and FF are taken before RUN (R91). -/
def variantOf (b : Byte) : Variant :=
  if b = 0xFE then .rgb
  else if b = 0xFF then .rgba
  else if bits b 7 6 = 0 then .index
  else if bits b 7 6 = 1 then .diff
  else if bits b 7 6 = 2 then .luma
  else .run

/-- The encoded width of a variant (R80). -/
def Variant.length : Variant → Nat
  | .rgb => 4
  | .rgba => 5
  | .index => 1
  | .diff => 1
  | .luma => 2
  | .run => 1

/-- `Len(b)` of R86. -/
def chunkLength (b : Byte) : Nat := (variantOf b).length

/-- Why the decoder rejects: the four FormatErrors of R181, each with what R187 records of it. -/
inductive DecodeError where
  /-- R112, R182: the first four bytes are not the magic; `found` is FoundMagic. -/
  | magicMismatch (found : Nat)
  /-- R111, R185: the magic is right and fewer than 14 bytes are present. -/
  | headerTruncated (present : Nat)
  /-- R122 (b), R183: the leading byte is present and its chunk is cut short. -/
  | chunkTruncated (need present : Nat)
  /-- R122 (a), R184: no byte is left at a record boundary. -/
  | endMarkerMissing
  deriving DecidableEq, Repr

/-- What the decoder answers. -/
inductive Decoded where
  | ok (i : Instr)
  | reject (e : DecodeError)
  deriving DecidableEq, Repr

/-- `FoundMagic` of R112: the first up to four bytes packed big-endian into 32 bits, absent bytes as 0x00. -/
def foundMagic (bs : List Byte) : Nat :=
  beNat ((bs ++ [0, 0, 0, 0]).take 4)

/-- Extraction of the header fields of R111 from 14 bytes whose magic has matched. -/
def headerFields : List Byte → Option Instr
  | _ :: _ :: _ :: _ :: w3 :: w2 :: w1 :: w0 :: h3 :: h2 :: h1 :: h0 :: c :: s :: _ =>
    some (.hdr (BitVec.ofNat 32 (beNat [w3, w2, w1, w0])) (BitVec.ofNat 32 (beNat [h3, h2, h1, h0])) c s)
  | _ => none

/-- The Header Parser (R111): the magic is tested before the length. -/
def decodeHeader (bs : List Byte) : Decoded :=
  if bs.take 4 ≠ magicBytes then .reject (.magicMismatch (foundMagic bs))
  else match headerFields bs with
    | some i => .ok i
    | none => .reject (.headerTruncated bs.length)

/-- Extraction of a chunk's fields (R123 to R128). Raw fields are zero-extended, then the bias is subtracted as an integer
(R92). `none` where the payload is cut short. -/
def chunkFields : List Byte → Option Instr
  | [] => none
  | b0 :: rest =>
    match variantOf b0, rest with
    | .rgb, r :: g :: b :: _ => some (.rgb r g b)
    | .rgb, _ => none
    | .rgba, r :: g :: b :: a :: _ => some (.rgba r g b a)
    | .rgba, _ => none
    | .index, _ => some (.index ⟨bits b0 5 0, Nat.mod_lt _ (by decide)⟩)
    | .diff, _ => some (.diff ((bits b0 5 4 : Int) - 2) ((bits b0 3 2 : Int) - 2) ((bits b0 1 0 : Int) - 2))
    | .luma, b1 :: _ => some (.luma ((bits b0 5 0 : Int) - 32) ((bits b1 7 4 : Int) - 8) ((bits b1 3 0 : Int) - 8))
    | .luma, _ => none
    | .run, _ => some (.run (bits b0 5 0 + 1))

/-- The Chunk Decoder `Decode` of R121 over the byte suffix at the cursor. -/
def decodeChunk : List Byte → Decoded
  | [] => .reject .endMarkerMissing
  | b0 :: rest =>
    match chunkFields (b0 :: rest) with
    | some i => .ok i
    | none => .reject (.chunkTruncated (chunkLength b0) (rest.length + 1))

/-- Does the suffix start with the end marker? False when fewer than 8 bytes are present (R144). -/
def startsWithEndMarker (bs : List Byte) : Bool := decide (bs.take 8 = endMarkerBytes)

/-- The Stream Decoder's choice of record (R141): the end-marker test comes first. -/
def decodeStream (bs : List Byte) : Decoded :=
  if startsWithEndMarker bs then .ok .endMark else decodeChunk bs

/-- Which record may stand at the cursor: the header record in phase HEADER, anything else in phase STREAM (R80, R100). -/
inductive Place where
  | header | stream
  deriving DecidableEq, Repr

/-- The decoder, total on any bytes. -/
def decode : Place → List Byte → Decoded
  | .header, bs => decodeHeader bs
  | .stream, bs => decodeStream bs

/-- Where a record may stand (R80). -/
def Instr.place : Instr → Place
  | .hdr _ _ _ _ => .header
  | .endMark => .stream
  | .rgb _ _ _ => .stream
  | .rgba _ _ _ _ => .stream
  | .index _ => .stream
  | .diff _ _ _ => .stream
  | .luma _ _ _ => .stream
  | .run _ => .stream

/-- The bytes of a record, from the table of R99. -/
def encode : Instr → List Byte
  | .hdr w h c s => magicBytes ++ beBytes 4 w.toNat ++ beBytes 4 h.toNat ++ [c, s]
  | .endMark => endMarkerBytes
  | .rgb r g b => [0xFE, r, g, b]
  | .rgba r g b a => [0xFF, r, g, b, a]
  | .index i => [BitVec.ofNat 8 i.val]
  | .diff dr dg db => [BitVec.ofInt 8 (0x40 + 16 * (dr + 2) + 4 * (dg + 2) + (db + 2))]
  | .luma dg drg dbg => [BitVec.ofInt 8 (0x80 + (dg + 32)), BitVec.ofInt 8 (16 * (drg + 8) + (dbg + 8))]
  | .run n => [BitVec.ofNat 8 (0xC0 + (n - 1))]

/-- The encoded width of a record in bytes (R80, R81, R82). -/
def Instr.length : Instr → Nat
  | .hdr _ _ _ _ => 14
  | .endMark => 8
  | .rgb _ _ _ => 4
  | .rgba _ _ _ _ => 5
  | .index _ => 1
  | .diff _ _ _ => 1
  | .luma _ _ _ => 2
  | .run _ => 1

/-- Is `w` the HDR row of the opcode table in the row's own numbering (match and mask are over bytes 0..3 read big-endian,
R100), or a 14-byte header laid out byte by byte? -/
def isHeaderWord (nbits w : Nat) : Bool :=
  decide (32 ≤ nbits) && (decide (w % 2 ^ 32 = magicNumber) || decide ((leBytes 4 w) = magicBytes))

/-- The bytes of an opcode-table word, the first at the lowest offset, zeros up to the longest record. Bytes count on from
the first (bits 7..0); the HDR and END rows, whose numbers the table reads big-endian (R100), are laid out as the big-endian
integers of R81 and R82. Log entry 12. -/
def tableBytes (nbits w : Nat) : List Byte :=
  let v := w % 2 ^ nbits
  if 32 ≤ nbits ∧ v % 2 ^ 32 = magicNumber then
    beBytes 4 v ++ beBytes 4 (v / 2 ^ 32) ++ beBytes 4 (v / 2 ^ 64) ++ leBytes 2 (v / 2 ^ 96)
  else if nbits = 64 ∧ v = 1 then beBytes 8 v ++ leBytes 6 0
  else leBytes 14 v

/-- Where an opcode-table word's record stands. -/
def tablePlace (nbits w : Nat) : Place :=
  if isHeaderWord nbits (w % 2 ^ nbits) then .header else .stream

/-- The record the decoder reads from an opcode-table word of `nbits` bits. -/
def decodeTableWord (nbits w : Nat) : Option Instr :=
  match decode (tablePlace nbits w) (tableBytes nbits w) with
  | .ok i => some i
  | .reject _ => none

end Sys2Proof
end

