-- ==== Sys2Proof/Config.lean ====
section
/-! DEFINITION. What the spec leaves open and the model does not choose.

The spec fixes every size (R7) and leaves IN_LEN, PC_BITS and NPIX_BITS open (R8). The model's naturals are unbounded, as R8 says;
the two widths are parameters: PC_BITS bounds the host's IN_LEN (R218), and both give the widths of host-visible registers (R36). What
is left are the unspecified VALUES of R36, R37, R38 and R212. -/

namespace Sys2Proof.Config

/-- The free values (spec/93_implementation_defined.md U4, U5, U6: "any value"). `freeNat draw place` is the value number
`place` of the draw number `draw`; a register of fewer bits takes its low bits. It has no body, so nothing can be proved of
it. Log entry 6. -/
opaque freeNat : Nat → Nat → Nat

/-- PC_BITS, the width of the byte cursor of an instance (R8, R22, R36): a parameter the spec leaves OPEN (U13, D5). It has no
body: a claim holds for every width. Log entry 8. -/
opaque pcBits : Nat

/-- NPIX_BITS, the width of the emitted-pixel counter of an instance (R8, R36): a parameter the spec leaves OPEN (U13, D21), without
a body like PC_BITS. Log entry 8. -/
opaque npixBits : Nat

end Sys2Proof.Config
end

