-- ==== Sys2Proof/Machine/State.lean ====
section
/-! DEFINITION. The state of QOI-CDRE as plain data: everything spec/10_state.md gives the machine, the input space, and the
host's pending actions. -/

namespace Sys2Proof.Machine

/-- A Pixel `{r,g,b,a}` of four `u8` (R11, R21). -/
structure Pixel where
  r : Byte
  g : Byte
  b : Byte
  a : Byte
  deriving DecidableEq, Repr

/-- A cache slot: `empty` (valid bit 0) or `full(p)` (valid bit 1) (R11, R24). An empty slot's pixel bits have no meaning and
are never read (U9; log entry 11). -/
inductive Slot where
  | empty
  | full (p : Pixel)
  deriving DecidableEq, Repr

/-- The parsed header, four registers (R28). -/
structure Header where
  width : U32
  height : U32
  channels : Byte
  colorspace : Byte
  deriving DecidableEq, Repr

/-- PHASE (R29). -/
inductive Phase where
  | idle | header | stream | done | error
  deriving DecidableEq, Repr

/-- The error record, five registers (R32). -/
structure ErrorRecord where
  kind : BitVec 2
  cause : BitVec 3
  offset : Nat
  expected : U64
  found : U64
  deriving DecidableEq, Repr

/-- The input space IN (R34, R35): (offset, byte) pairs, offsets strictly rising. An offset not listed holds no byte. -/
abbrev Memory := List Host.Cell

/-- What the host can do (R210, R212, R214, R215, R36). Each is one step of the machine; log entry 3. -/
inductive HostAct where
  /-- Place one byte of the container in IN (R214 (1)). -/
  | writeIn (offset : Nat) (b : Byte)
  /-- Read one byte of IN between runs (R14, R35, R215). -/
  | readIn (offset : Nat)
  /-- Write the host-visible register of that number (R36); START is a write of 1 to CTRL. -/
  | writeReg (number value : Nat)
  /-- Read the host-visible register of that number (R36). -/
  | readReg (number : Nat)
  /-- Read pixel number `k` of OUT (R215, collect). -/
  | readOut (k : Nat)
  /-- Wait until the run is over (R215, wait). -/
  | waitEnd
  /-- Wait until the cursor has reached an offset or the run is over: the model's own, it says between which two engine steps the
  next action falls (log entry 3). -/
  | waitCursor (offset : Nat)
  /-- Hardware reset (R210, R211), in any phase: an event of its own, no action of the host; the model only lists it among the host's
  (log entry 17). -/
  | hardwareReset
  deriving DecidableEq, Repr

/-- What the host's last read gave it. -/
inductive HostDatum where
  | nothing
  | value (v : Nat)
  | pixel (p : Pixel)
  | byte (b : Byte)
  deriving DecidableEq, Repr

/-- The machine's state: the tuple of R20 `(PHASE, pc, prev, cache, OUT, NPIX, HDR, ERR)`, the input with its length (R34; a
parameter of the run, kept here because a step reads it, log entry 7), the host register IN_LEN (R36), and the model's own
fields for the host and the free values. -/
structure State where
  /-- PHASE (R29). -/
  phase : Phase
  /-- The byte cursor (R22). -/
  pc : Nat
  /-- The previous pixel (R21). -/
  prev : Pixel
  /-- The pixel cache (R24). -/
  cache : Vector Slot 64
  /-- OUT (R30), oldest pixel first. -/
  out : List Pixel
  /-- NPIX (R30). -/
  npix : Nat
  /-- HDR (R28). -/
  hdr : Header
  /-- ERR (R32). -/
  err : ErrorRecord
  /-- The input space IN (R34). -/
  inMem : Memory
  /-- The register IN_LEN as the host wrote it (R36 no. 2). -/
  inLenReg : Nat
  /-- The IN_LEN of the run, sampled at START (R212). -/
  inLen : Nat
  /-- The model's own: the host actions still to come, the next one first (log entry 3). -/
  host : List HostAct
  /-- The model's own: what the host's last read returned (log entry 3). -/
  hostData : HostDatum
  /-- The model's own: how many free values have been drawn (log entry 6). -/
  draws : Nat
  deriving DecidableEq, Repr

/-- Why a step stops with a fault. The errors of the SPEC are no faults here: they enter phase ERROR (R186; log entry 5). -/
inductive Fault where
  /-- Raised by the record fetch: the run needs an input byte that its IN_LEN promises and the host never placed, or the
  cursor stands past IN_LEN. Safe: the spec puts such runs outside the model (R218, premise P3), and no state with the run
  invariant raises it. -/
  | inputByteAbsent
  deriving DecidableEq, Repr

/-- Why a step has no meaning. Every constructor but the first belongs to a HOST action, none to a record. -/
inductive Refusal where
  /-- Raised by exec's arms for a record that has no meaning yet. Safe. -/
  | notModelled (mnemonic : String)
  /-- Raised by a host write of IN, IN_LEN or CTRL in phase HEADER or STREAM (R218). Safe: no move is given. -/
  | hostWriteDuringRun
  /-- Raised by a host write to a read-only register (R218). Safe: no move is given. -/
  | hostWriteReadOnly
  /-- Raised by setting IN_LEN, or by START with an IN_LEN, larger than the bytes present (R218). Safe: no move is given. -/
  | inLenBeyondInput
  /-- Raised by setting IN_LEN to a value that is not below 2^PC_BITS (R218). Safe: no move is given. -/
  | inLenTooWide
  /-- Raised by a host read of IN in phase HEADER or STREAM (R14, R215). Safe: no move is given. -/
  | hostReadDuringRun
  /-- Raised by a host read of IN at an offset where no byte was placed (R35; log entry 25). Safe: no move is given. -/
  | noSuchInputByte
  /-- Raised by a host access to a register number that R36 does not list. Safe: no move is given. -/
  | noSuchRegister
  /-- Raised by a host read of a pixel of OUT at or past NPIX in phase DONE (R215: OUT[0..NPIX-1]). Safe: no move is given. -/
  | noSuchPixel
  deriving DecidableEq, Repr

/-- The machine right after hardware reset (R38, R211): PHASE is IDLE. The spec leaves every other register unspecified; the
values here are named in log entry 2 (DESIGN CHOICE, unsafe): those of R37 where R37 gives one, else zero. -/
def State.reset : State where
  phase := .idle
  pc := 0
  prev := ⟨0, 0, 0, 255⟩
  cache := Vector.replicate 64 .empty
  out := []
  npix := 0
  hdr := ⟨0, 0, 0, 0⟩
  err := ⟨0, 0, 0, 0, 0⟩
  inMem := []
  inLenReg := 0
  inLen := 0
  host := []
  hostData := .nothing
  draws := 0

end Sys2Proof.Machine
end

