-- ==== Sys2Proof/Machine/Flags.lean ====
section
/-! DEFINITION. The flag-like state of spec/10_state.md R33 and the code numbers of PHASE (R29) and of the errors
(spec/60_exceptions.md R181). The engine has no condition codes: wrap-around records nothing (R33, R165). -/

namespace Sys2Proof.Machine

/-- The valid bit of a slot (R24, R33). -/
def Slot.valid : Slot → Bool
  | .empty => false
  | .full _ => true

/-- The number the host reads in PHASE (R29). -/
def Phase.code : Phase → Nat
  | .idle => 0
  | .header => 1
  | .stream => 2
  | .done => 3
  | .error => 4

/-- A run is under way: an engine step is enabled (R29, R222). -/
def Phase.running : Phase → Bool
  | .idle => false
  | .header => true
  | .stream => true
  | .done => false
  | .error => false

/-- The run is over (R223). -/
def Phase.ended : Phase → Bool
  | .idle => false
  | .header => false
  | .stream => false
  | .done => true
  | .error => true

/-- The causes of R181. -/
inductive ErrorCause where
  | magicMismatch | headerTruncated | chunkTruncated | endMarkerMissing | cacheSlotEmpty
  deriving DecidableEq, Repr

/-- ERR.kind of a cause (R181): 1 FormatError, 2 ReconstructionError. -/
def ErrorCause.kindCode : ErrorCause → BitVec 2
  | .magicMismatch => 1
  | .headerTruncated => 1
  | .chunkTruncated => 1
  | .endMarkerMissing => 1
  | .cacheSlotEmpty => 2

/-- ERR.cause of a cause (R181). -/
def ErrorCause.code : ErrorCause → BitVec 3
  | .magicMismatch => 1
  | .headerTruncated => 2
  | .chunkTruncated => 3
  | .endMarkerMissing => 4
  | .cacheSlotEmpty => 5

end Sys2Proof.Machine
end

