-- ==== Sys2Proof/Machine/Operands.lean ====
section
/-! DEFINITION. The pixel arithmetic of spec/43_pixel_replay.md: the hash, the wrap-around and the new pixel of each operand
form. -/

namespace Sys2Proof.Machine

/-- `wrap8(v)` of R12: `v mod 256` with the mathematical modulus, also for negative `v`. -/
def wrap8 (v : Int) : Byte := BitVec.ofNat 8 (v % 256).toNat

/-- `Hash(p)` of R155, the sum over the natural numbers. -/
def pixelHash (p : Pixel) : Fin 64 :=
  ⟨(3 * p.r.toNat + 5 * p.g.toNat + 7 * p.b.toNat + 11 * p.a.toNat) % 64, Nat.mod_lt _ (by decide)⟩

/-- The new pixel of RGB (R157): alpha is carried over from `prev`. -/
def literalPixel (prev : Pixel) (r g b : Byte) : Pixel := ⟨r, g, b, prev.a⟩

/-- The new pixel of DIFF and LUMA (R160, R161): each colour channel of `prev` plus its delta, modulo 256, alpha unchanged
(R165). -/
def deltaPixel (prev : Pixel) (dr dg db : Int) : Pixel :=
  ⟨wrap8 (prev.r.toNat + dr), wrap8 (prev.g.toNat + dg), wrap8 (prev.b.toNat + db), prev.a⟩

end Sys2Proof.Machine
end

