-- ==== Sys2Proof/Machine/Ops.lean ====
section
/-! DEFINITION. The named operations over the state: the input space, Emit, the cache, the replay tail, error entry, the start
of a run, hardware reset and the host-visible registers. -/

namespace Sys2Proof.Machine

/-! ### The input space (spec/20_memory.md, R34) -/

/-- The byte at offset `a`, if one was placed there. -/
def Memory.read : Memory → Nat → Option Byte
  | [], _ => none
  | (k, v) :: m, a => if k = a then some v else Memory.read m a

/-- Place a byte; the offsets stay strictly rising. -/
def Memory.write : Memory → Nat → Byte → Memory
  | [], a, b => [(a, b)]
  | (k, v) :: m, a, b =>
    if a < k then (a, b) :: (k, v) :: m
    else if a = k then (a, b) :: m
    else (k, v) :: Memory.write m a b

/-- Every offset is at least `lo` and the offsets strictly rise. -/
def Memory.wfFrom : Nat → Memory → Bool
  | _, [] => true
  | lo, (k, _) :: m => decide (lo ≤ k) && Memory.wfFrom (k + 1) m

/-- The canonical form: offsets strictly rising. An unlisted offset holds no byte, so no entry can be redundant. -/
def Memory.wf (m : Memory) : Bool := Memory.wfFrom 0 m

/-- Place a sequence of bytes from offset `a` on. -/
def Memory.writeAll : Memory → Nat → List Byte → Memory
  | m, _, [] => m
  | m, a, b :: bs => Memory.writeAll (Memory.write m a b) (a + 1) bs

/-- The `n` bytes from offset `a` on, if all of them were placed (R52, R57: reading has no effect). -/
def Memory.readBytes (m : Memory) : Nat → Nat → Option (List Byte)
  | _, 0 => some []
  | a, n + 1 =>
    match Memory.read m a, Memory.readBytes m (a + 1) n with
    | some b, some bs => some (b :: bs)
    | _, _ => none

/-- Are at least `n` bytes present in the input space, at offsets 0 .. n-1 (R218)? -/
def Memory.present (m : Memory) (n : Nat) : Bool := (List.range n).all fun k => (Memory.read m k).isSome

/-! ### Record effects -/

/-- `Emit(p)` done `count` times (R30, R59): OUT is append-only and NPIX counts. -/
def emit (p : Pixel) (count : Nat) (s : State) : State :=
  { s with out := s.out ++ List.replicate count p, npix := s.npix + count }

/-- The write-back of R163: the whole slot at `Hash(p)` becomes `full(p)`, unconditionally. -/
def writeBack (p : Pixel) (s : State) : State :=
  { s with cache := s.cache.set (pixelHash p) (.full p) }

/-- The common tail of `Replay` (R156) and the cursor advance of the stream step (R141): Emit, write-back, `prev`, `pc`, in the
order of R61. -/
def replay (p : Pixel) (count len : Nat) (s : State) : State :=
  let s := writeBack p (emit p count s)
  { s with prev := p, pc := s.pc + len }

/-- Error entry, `raise` of R186: the record is written, PHASE becomes ERROR, nothing else changes. -/
def raiseError (c : ErrorCause) (offset expected found : Nat) (s : State) : State :=
  { s with
    err := ⟨c.kindCode, c.code, offset, BitVec.ofNat 64 expected, BitVec.ofNat 64 found⟩
    phase := .error }

/-- The error entry for each rejection of the decoder, with the record of R187. -/
def raiseDecodeError (e : DecodeError) (s : State) : State :=
  match e with
  | .magicMismatch found => raiseError .magicMismatch s.pc magicNumber found s
  | .headerTruncated present => raiseError .headerTruncated s.pc 14 present s
  | .chunkTruncated need present => raiseError .chunkTruncated s.pc need present s
  | .endMarkerMissing => raiseError .endMarkerMissing s.pc 8 0 s

/-! ### Unspecified values (log entry 6) -/

/-- An unspecified byte of draw `d`. -/
def freeByte (d place : Nat) : Byte := BitVec.ofNat 8 (Config.freeNat d place)

/-- An unspecified value of PC_BITS bits (R36: PC, IN_LEN, ERR_OFFSET). -/
def freeOffset (d place : Nat) : Nat := Config.freeNat d place % 2 ^ Config.pcBits

/-- An unspecified pixel: four independent bytes. -/
def freePixel (d place : Nat) : Pixel :=
  ⟨freeByte d (4 * place), freeByte d (4 * place + 1), freeByte d (4 * place + 2), freeByte d (4 * place + 3)⟩

/-- An unspecified header. -/
def freeHeader (d : Nat) : Header :=
  ⟨BitVec.ofNat 32 (Config.freeNat d 0), BitVec.ofNat 32 (Config.freeNat d 1), freeByte d 2, freeByte d 3⟩

/-- An unspecified error record. -/
def freeError (d : Nat) : ErrorRecord :=
  ⟨BitVec.ofNat 2 (Config.freeNat d 4), BitVec.ofNat 3 (Config.freeNat d 5), freeOffset d 6,
    BitVec.ofNat 64 (Config.freeNat d 7), BitVec.ofNat 64 (Config.freeNat d 8)⟩

/-- An unspecified slot: its valid bit and its pixel are both open. -/
def freeSlot (d : Nat) (i : Fin 64) : Slot :=
  if Config.freeNat d (20 + i.val) % 2 = 1 then .full (freePixel d (32 + i.val)) else .empty

/-- An unspecified output sequence. -/
def freeOut (d : Nat) : List Pixel :=
  (List.range (Config.freeNat d 9)).map fun k => freePixel d (100 + k)

/-! ### Start of a run and hardware reset (spec/70_reset_and_hazards.md) -/

/-- The initial previous pixel of R21, R37. -/
def startPixel : Pixel := ⟨0, 0, 0, 255⟩

/-- All 64 slots empty (R24, R37). -/
def emptyCache : Vector Slot 64 := Vector.replicate 64 .empty

/-- START (R212). IN_LEN is sampled; HDR and ERR become unspecified. -/
def startRun (s : State) : State :=
  { s with
    prev := startPixel
    cache := emptyCache
    pc := 0
    out := []
    npix := 0
    phase := .header
    inLen := s.inLenReg
    hdr := freeHeader s.draws
    err := freeError s.draws
    draws := s.draws + 1 }

/-- Hardware reset (R211, R38): PHASE becomes IDLE, every other register, `prev`, the cache and OUT become unspecified. The
input space is no register of the engine and stays (log entry 17). -/
def hardwareReset (s : State) : State :=
  { s with
    phase := .idle
    pc := freeOffset s.draws 10
    prev := freePixel s.draws 4
    cache := Vector.ofFn (freeSlot s.draws)
    out := freeOut s.draws
    npix := Config.freeNat s.draws 11 % 2 ^ Config.npixBits
    hdr := freeHeader s.draws
    err := freeError s.draws
    inLenReg := freeOffset s.draws 12
    inLen := freeOffset s.draws 13
    draws := s.draws + 1 }

/-! ### Host-visible registers (R36) -/

/-- The fourteen registers of R36. -/
inductive HostReg where
  | ctrl | phase | inLen | pc | npix | hdrWidth | hdrHeight | hdrChannels | hdrColorspace
  | errKind | errCause | errOffset | errExpected | errFound
  deriving DecidableEq, Repr

/-- The register of a number (R36). -/
def HostReg.ofNumber : Nat → Option HostReg
  | 0 => some .ctrl
  | 1 => some .phase
  | 2 => some .inLen
  | 3 => some .pc
  | 4 => some .npix
  | 5 => some .hdrWidth
  | 6 => some .hdrHeight
  | 7 => some .hdrChannels
  | 8 => some .hdrColorspace
  | 9 => some .errKind
  | 10 => some .errCause
  | 11 => some .errOffset
  | 12 => some .errExpected
  | 13 => some .errFound
  | _ => none

/-- The "valid when" column of R36: in which phases a read returns the register's value. -/
def HostReg.validIn : HostReg → Phase → Bool
  | .ctrl, p => !p.running
  | .phase, _ => true
  | .inLen, _ => true
  | .pc, p => p.ended
  | .npix, p => decide (p = .done)
  | .hdrWidth, p => decide (p = .done)
  | .hdrHeight, p => decide (p = .done)
  | .hdrChannels, p => decide (p = .done)
  | .hdrColorspace, p => decide (p = .done)
  | .errKind, p => decide (p = .error)
  | .errCause, p => decide (p = .error)
  | .errOffset, p => decide (p = .error)
  | .errExpected, p => decide (p = .error)
  | .errFound, p => decide (p = .error)

/-- How many bits a register has (R36). -/
def HostReg.bits : HostReg → Nat
  | .ctrl => 1
  | .phase => 3
  | .inLen => Config.pcBits
  | .pc => Config.pcBits
  | .npix => Config.npixBits
  | .hdrWidth => 32
  | .hdrHeight => 32
  | .hdrChannels => 8
  | .hdrColorspace => 8
  | .errKind => 2
  | .errCause => 3
  | .errOffset => Config.pcBits
  | .errExpected => 64
  | .errFound => 64

/-- What a valid read returns (R36); CTRL reads as 0. -/
def HostReg.read : HostReg → State → Nat
  | .ctrl, _ => 0
  | .phase, s => s.phase.code
  | .inLen, s => s.inLenReg
  | .pc, s => s.pc
  | .npix, s => s.npix
  | .hdrWidth, s => s.hdr.width.toNat
  | .hdrHeight, s => s.hdr.height.toNat
  | .hdrChannels, s => s.hdr.channels.toNat
  | .hdrColorspace, s => s.hdr.colorspace.toNat
  | .errKind, s => s.err.kind.toNat
  | .errCause, s => s.err.cause.toNat
  | .errOffset, s => s.err.offset
  | .errExpected, s => s.err.expected.toNat
  | .errFound, s => s.err.found.toNat

/-! ### The output as bytes (R55) -/

/-- The four bytes of a pixel in the order r, g, b, a (R55). -/
def Pixel.bytes (p : Pixel) : List Byte := [p.r, p.g, p.b, p.a]

/-- OUT laid out in byte-addressed memory (R55). -/
def outBytes (out : List Pixel) : List Byte := out.flatMap Pixel.bytes

end Sys2Proof.Machine
end

