-- ==== Sys2Proof/Machine/Container.lean ====
section
/-! DEFINITION. The two records that frame the chunks: HDR (spec/40_header.md) and END (spec/42_stream_sequencer.md). The
FormatErrors of the HDR step are the decoder's rejections (Decode.lean, Sequencer.lean). -/

namespace Sys2Proof.Machine

/-- HDR w, h, c, s (R111, R113): the four fields are copied unvalidated, the cursor stands at 14, PHASE is STREAM. -/
def execHdr (w h : U32) (c cs : Byte) (s : State) : Host.Outcome State Fault Refusal :=
  .next { s with hdr := ⟨w, h, c, cs⟩, pc := 14, phase := .stream }

/-- END (R142): the cursor moves past the marker and the run is DONE. -/
def execEndMark (s : State) : Host.Outcome State Fault Refusal :=
  .next { s with pc := s.pc + 8, phase := .done }

end Sys2Proof.Machine
end

