-- ==== Sys2Proof/Machine/Delta.lean ====
section
/-! DEFINITION. The delta chunks DIFF and LUMA (spec/43_pixel_replay.md R160, R161). -/

namespace Sys2Proof.Machine

/-- DIFF dr, dg, db (R160). -/
def execDiff (dr dg db : Int) (s : State) : Host.Outcome State Fault Refusal :=
  .next (replay (deltaPixel s.prev dr dg db) 1 1 s)

/-- LUMA dg, dr_minus_dg, db_minus_dg (R161): the wrap is applied to the whole sum. -/
def execLuma (dg drMinusDg dbMinusDg : Int) (s : State) : Host.Outcome State Fault Refusal :=
  .next (replay (deltaPixel s.prev (dg + drMinusDg) dg (dg + dbMinusDg)) 1 2 s)

end Sys2Proof.Machine
end

