-- ==== Sys2Proof/Machine/Literal.lean ====
section
/-! DEFINITION. The literal chunks RGB and RGBA (spec/43_pixel_replay.md R157, R158). -/

namespace Sys2Proof.Machine

/-- RGB r, g, b (R157). -/
def execRgb (r g b : Byte) (s : State) : Host.Outcome State Fault Refusal :=
  .next (replay (literalPixel s.prev r g b) 1 4 s)

/-- RGBA r, g, b, a (R158): `prev` is not read. -/
def execRgba (r g b a : Byte) (s : State) : Host.Outcome State Fault Refusal :=
  .next (replay ⟨r, g, b, a⟩ 1 5 s)

end Sys2Proof.Machine
end

