-- ==== Sys2Proof/Machine/Reference.lean ====
section
/-! DEFINITION. The chunks that repeat an earlier pixel: INDEX and RUN (spec/43_pixel_replay.md R159, R162). -/

namespace Sys2Proof.Machine

/-- INDEX i (R159): the slot's pixel, or the ReconstructionError CACHE_SLOT_EMPTY before anything is emitted (R188). -/
def execIndex (i : Fin 64) (s : State) : Host.Outcome State Fault Refusal :=
  match s.cache[i] with
  | .empty => .next (raiseError .cacheSlotEmpty s.pc i.val 0 s)
  | .full q => .next (replay q 1 1 s)

/-- RUN n (R162): exactly `n` copies of `prev`, one write-back. -/
def execRun (n : Nat) (s : State) : Host.Outcome State Fault Refusal :=
  .next (replay s.prev n 1 s)

end Sys2Proof.Machine
end

