-- ==== Sys2Proof/Machine/HostPort.lean ====
section
/-! DEFINITION. What the host's actions do (spec/10_state.md R36, spec/70_reset_and_hazards.md R212 to R218). The actions that
R218 puts outside the model are refused by name. -/

namespace Sys2Proof.Machine

/-- START by a write of CTRL (R212): bit 0 set begins a run, allowed when no run is under way and the bytes IN_LEN promises are
present (premises P3, P4); bit 0 clear does nothing (log entry 16). -/
def hostWriteCtrl (v : Nat) (s : State) : Host.Outcome State Fault Refusal :=
  if s.phase.running then .refused .hostWriteDuringRun
  else if v % 2 = 0 then .next s
  else if Memory.present s.inMem s.inLenReg then .next (startRun s)
  else .refused .inLenBeyondInput

/-- A write of the register IN_LEN (R36 no. 2, R214 (2)): R218 puts a value above the number of bytes present, or one not below
2^PC_BITS, outside the model. -/
def hostWriteInLen (v : Nat) (s : State) : Host.Outcome State Fault Refusal :=
  if s.phase.running then .refused .hostWriteDuringRun
  else if ¬ Memory.present s.inMem v then .refused .inLenBeyondInput
  else if 2 ^ Config.pcBits ≤ v then .refused .inLenTooWide
  else .next { s with inLenReg := v }

/-- A host write of the register of that number (R36). -/
def hostWriteReg (number v : Nat) (s : State) : Host.Outcome State Fault Refusal :=
  match HostReg.ofNumber number with
  | none => .refused .noSuchRegister
  | some .ctrl => hostWriteCtrl v s
  | some .inLen => hostWriteInLen v s
  | some _ => .refused .hostWriteReadOnly

/-- A host read of the register of that number (R36): outside its valid phases the value is unspecified, of the
register's width (log entry 10). -/
def hostReadReg (number : Nat) (s : State) : Host.Outcome State Fault Refusal :=
  match HostReg.ofNumber number with
  | none => .refused .noSuchRegister
  | some r =>
    if r.validIn s.phase then .next { s with hostData := .value (r.read s) }
    else .next { s with hostData := .value (Config.freeNat s.draws 14 % 2 ^ r.bits), draws := s.draws + 1 }

/-- A host read of one pixel of OUT: meaningful in DONE only (R35, R36, U8). -/
def hostReadOut (k : Nat) (s : State) : Host.Outcome State Fault Refusal :=
  if s.phase = .done then
    match s.out[k]? with
    | some p => .next { s with hostData := .pixel p }
    | none => .refused .noSuchPixel
  else .next { s with hostData := .pixel (freePixel s.draws 4), draws := s.draws + 1 }

/-- A host write of one byte of IN (R214 (1), R216, R218). -/
def hostWriteIn (offset : Nat) (b : Byte) (s : State) : Host.Outcome State Fault Refusal :=
  if s.phase.running then .refused .hostWriteDuringRun
  else .next { s with inMem := Memory.write s.inMem offset b }

/-- A host read of one byte of IN (R35), only while no run is under way (R14, R215: IN only in IDLE, DONE and ERROR): IN is plain
memory and reading it has no effect (R57; log entry 25). -/
def hostReadIn (offset : Nat) (s : State) : Host.Outcome State Fault Refusal :=
  if s.phase.running then .refused .hostReadDuringRun
  else match Memory.read s.inMem offset with
    | some b => .next { s with hostData := .byte b }
    | none => .refused .noSuchInputByte

/-- One host action on the state whose queue no longer holds it. A wait that is over changes nothing. -/
def hostStep (a : HostAct) (s : State) : Host.Outcome State Fault Refusal :=
  match a with
  | .writeIn offset b => hostWriteIn offset b s
  | .readIn offset => hostReadIn offset s
  | .writeReg number v => hostWriteReg number v s
  | .readReg number => hostReadReg number s
  | .readOut k => hostReadOut k s
  | .waitEnd => .next s
  | .waitCursor _ => .next s
  | .hardwareReset => .next (hardwareReset s)

/-- The actions that load a container from offset `a` on (R214 (1)). -/
def loadFrom : Nat → List Byte → List HostAct
  | _, [] => []
  | a, b :: bs => .writeIn a b :: loadFrom (a + 1) bs

/-- The host's side of the launch of one run, in the order of R214: load, IN_LEN, START. -/
def launchScript (container : List Byte) : List HostAct :=
  loadFrom 0 container ++ [.writeReg 2 container.length, .writeReg 0 1]

end Sys2Proof.Machine
end

