-- ==== Sys2Proof/Machine/Sequencer.lean ====
section
/-! DEFINITION. The sequencing of records: record fetch (spec/20_memory.md R52), the HDR step (spec/40_header.md R110, R111),
the stream step (spec/42_stream_sequencer.md R140, R141) and which of engine and host moves next (spec/00_scope.md R14). -/

namespace Sys2Proof.Machine

/-- The most bytes a step looks at: 14 for the header, 8 for the end-marker test, which covers every chunk (R52). -/
def Place.window : Place → Nat
  | .header => 14
  | .stream => 8

/-- The bytes of IN at the cursor, as many as the step may look at and IN_LEN leaves (R52; log entry 13). `none` where a byte
below IN_LEN was never placed, or the cursor stands past IN_LEN. -/
def fetchRecord (p : Place) (s : State) : Option (List Byte) :=
  if s.pc ≤ s.inLen then Memory.readBytes s.inMem s.pc (min (Place.window p) (s.inLen - s.pc)) else none

/-- Decode the record at the cursor and run it, or enter the error of R187. -/
def runRecord (p : Place) (s : State) : Host.Outcome State Fault Refusal :=
  match fetchRecord p s with
  | none => .fault .inputByteAbsent
  | some bs =>
    match decode p bs with
    | .ok i => exec i s
    | .reject e => .next (raiseDecodeError e s)

/-- The engine's step: the HDR step in HEADER, the stream step in STREAM; in IDLE, DONE and ERROR no step is enabled and the
state is frozen (R29, R39; log entry 4). -/
def engineStep (s : State) : Host.Outcome State Fault Refusal :=
  match s.phase with
  | .header => runRecord .header s
  | .stream => runRecord .stream s
  | .idle => .next s
  | .done => .next s
  | .error => .next s

/-- Is it the engine's turn? The host has nothing to do, or it waits for a run that is under way (R215, wait).
DESIGN CHOICE (log entry 3): the spec does not say where a host access falls among the engine's steps. Here every pending action but
a wait goes before the engine's next step; `waitCursor` holds the actions behind it back to a later boundary, so that an access can
be placed between any two steps of a run. -/
def engineTurn (s : State) : Bool :=
  match s.host with
  | [] => true
  | .waitEnd :: _ => s.phase.running
  | .waitCursor n :: _ => s.phase.running && decide (s.pc < n)
  | _ :: _ => false

/-- One step of the machine: the engine's, or the host's next action (log entry 3). -/
def machineStep (s : State) : Host.Outcome State Fault Refusal :=
  if engineTurn s then engineStep s
  else match s.host with
    | [] => engineStep s
    | a :: rest => hostStep a { s with host := rest }

end Sys2Proof.Machine
end

