-- ==== Sys2Proof/Machine/Step.lean ====
section
/-! DEFINITION. One step of the machine, and the placing of one record where the next step fetches it. -/

namespace Sys2Proof.Machine

/-- One step (R13): one record of the input, an error, or one action of the host. -/
def step (s : State) : Host.Outcome State Fault Refusal := Sys2Proof.Machine.machineStep s

/-- `s` with one record stored where the next step fetches it. The engine fetches only while a run is under way, so the run is
brought to the record's place: a header at offset 0 in phase HEADER; any other record at the cursor in phase STREAM (at 14, the
first chunk's offset of R50, when no stream is under way), with IN_LEN just past the bytes placed and no host action pending.
It stands for the host's load and START (log entry 12). -/
def State.withFetchWord (s : State) (nbits w : Nat) : State :=
  let bs := tableBytes nbits w
  let p := tablePlace nbits w
  let at0 : Nat := match p with
    | .header => 0
    | .stream => if s.phase = .stream then s.pc else 14
  { s with
    phase := match p with
      | .header => .header
      | .stream => .stream
    pc := at0
    inMem := Memory.writeAll s.inMem at0 bs
    inLenReg := at0 + bs.length
    inLen := at0 + bs.length
    host := [] }

end Sys2Proof.Machine
end

