-- ==== Sys2Proof/Safety.lean ====
section
/-! DEFINITION. The terms claims are stated in: what a run shows at its end (spec/10_state.md R31), the launch premises of
spec/92_eei_decisions.md, and the invariant of the state (R22, R24, R25, R30, R164, R186). -/

namespace Sys2Proof.Machine

/-- The value of a run (R31, R147): nothing else of the state is a result. -/
inductive RunResult where
  | ok (hdr : Header) (out : List Pixel) (pc : Nat)
  | err (e : ErrorRecord)
  | unfinished
  deriving DecidableEq, Repr

/-- What the host may observe of a state (R31, R223). -/
def State.result (s : State) : RunResult :=
  match s.phase with
  | .done => .ok s.hdr s.out s.pc
  | .error => .err s.err
  | .idle => .unfinished
  | .header => .unfinished
  | .stream => .unfinished

/-- The state the engine is in when a run may be claimed about (P1, P3, P4): START has just been given, the host only waits,
and every byte that IN_LEN promises is there. P2 (IN is plain memory) is the model's `Memory.read`; the width in
P3 is `State.Fits` below, which no claim about a run needs. -/
structure LaunchPremises (s : State) : Prop where
  started : s.phase = .header
  cursor : s.pc = 0
  startPrev : s.prev = startPixel
  startCache : s.cache = emptyCache
  startOut : s.out = []
  startCount : s.npix = 0
  hostWaits : s.host = []
  sampled : s.inLen = s.inLenReg
  memory : Memory.wf s.inMem = true
  present : Memory.present s.inMem s.inLen = true

/-- `k` steps of the machine. -/
abbrev runSteps (k : Nat) (s : State) : Host.Outcome State Fault Refusal := Sys2Proof.core.run k s

/-- The pairs of ERR.kind and ERR.cause that R181 lists. -/
def ErrorRecord.listed (e : ErrorRecord) : Prop :=
  ∃ c : ErrorCause, e.kind = c.kindCode ∧ e.cause = c.code

/-- How many slots are full (R25 (c)). -/
def fullSlots (c : Vector Slot 64) : Nat := c.toList.countP Slot.valid

/-- The invariant of every state the machine reaches. What concerns the run holds from START to the next hardware reset. -/
structure State.Inv (s : State) : Prop where
  /-- IN is in canonical form. -/
  memory : Memory.wf s.inMem = true
  /-- R216: the run's IN_LEN is the register's during the run. -/
  sampled : s.phase.running = true → s.inLen = s.inLenReg
  /-- P3: the bytes the run's IN_LEN promises are there. -/
  present : s.phase ≠ .idle → Memory.present s.inMem s.inLen = true
  /-- R22, R110: the header step starts at offset 0, before anything was emitted. -/
  atHeader : s.phase = .header → s.pc = 0 ∧ s.out = []
  /-- R22, R141: the cursor in a stream. -/
  inStream : s.phase = .stream → 14 ≤ s.pc ∧ s.pc ≤ s.inLen
  /-- R142, R214 (3): a finished run has consumed a header and an end marker, and each other byte emitted at most 62 pixels. -/
  atDone : s.phase = .done → 22 ≤ s.pc ∧ s.pc ≤ s.inLen ∧ s.npix ≤ 62 * (s.pc - 22)
  /-- R186, R181: the cursor of a failed run is the offset recorded, and the codes are listed ones. -/
  atError : s.phase = .error → s.pc = s.err.offset ∧ s.pc ≤ s.inLen ∧ s.err.listed
  /-- R30: NPIX counts OUT, and no byte emits more than 62 pixels. -/
  counted : s.phase ≠ .idle → s.npix = s.out.length ∧ s.npix ≤ 62 * (s.pc - 14)
  /-- R25 (a): a full slot holds a pixel of its own hash. -/
  slotHash : s.phase ≠ .idle → ∀ (i : Fin 64) (p : Pixel), s.cache[i] = .full p → pixelHash p = i
  /-- R37: before the first pixel `prev` and the cache are as START left them. -/
  fresh : s.phase ≠ .idle → s.out = [] → s.prev = startPixel ∧ s.cache = emptyCache
  /-- R164, R25 (b): `prev` is the last pixel of OUT and is in the cache. -/
  last : s.phase ≠ .idle → s.out ≠ [] → s.out.getLast? = some s.prev ∧ s.cache[pixelHash s.prev] = .full s.prev

/-- Every register of PC_BITS bits holds a value of that width (R22, R36: PC, IN_LEN, ERR_OFFSET; R218). -/
structure State.Fits (s : State) : Prop where
  lenReg : s.inLenReg < 2 ^ Config.pcBits
  len : s.inLen < 2 ^ Config.pcBits
  cursor : s.pc < 2 ^ Config.pcBits
  offset : s.err.offset < 2 ^ Config.pcBits

/-- NPIX holds a value of NPIX_BITS bits (R8, R36). -/
def State.CountFits (s : State) : Prop := s.npix < 2 ^ Config.npixBits

/-! ### The spec's own words for claims -/

/-- `Avail(a, n)` of R12. -/
abbrev Avail (s : State) (a n : Nat) : Prop := a + n ≤ s.inLen

/-- `IN[k]` of R12 as a number; claims use it only where the byte is there. -/
def inByte (s : State) (k : Nat) : Nat :=
  match Memory.read s.inMem k with
  | some b => b.toNat
  | none => 0

/-- `MemRead(a, n)` of R12: the unsigned big-endian integer of `n` bytes. -/
def memRead (s : State) (a : Nat) : Nat → Nat
  | 0 => 0
  | n + 1 => memRead s a n * 256 + inByte s (a + n)

/-- The bytes the run's IN_LEN promises are there (P3). -/
def InputThere (s : State) : Prop := ∀ k < s.inLen, ∃ b, Memory.read s.inMem k = some b

/-- `FoundMagic` of R112, `B(k)` being 0 at and past IN_LEN. -/
def foundMagicOf (s : State) : Nat :=
  let b := fun k => if k < s.inLen then inByte s k else 0
  b 0 * 256 ^ 3 + b 1 * 256 ^ 2 + b 2 * 256 + b 3

/-- `Len(b)` as R86 prints it. -/
def lengthByTable (b : Nat) : Nat :=
  if b ≤ 0x3F then 1 else if b ≤ 0x7F then 1 else if b ≤ 0xBF then 2 else if b ≤ 0xFD then 1 else if b = 0xFE then 4 else 5

/-- The "pixels emitted" column of R86. -/
def pixelsByTable (b : Nat) : Nat := if 0xC0 ≤ b ∧ b ≤ 0xFD then b - 0xC0 + 1 else 1

/-- What no record touches: the input, its length, and the host's side. -/
structure SameSurroundings (s t : State) : Prop where
  input : ∀ a, Memory.read t.inMem a = Memory.read s.inMem a
  lenReg : t.inLenReg = s.inLenReg
  len : t.inLen = s.inLen
  host : t.host = s.host
  hostData : t.hostData = s.hostData
  draws : t.draws = s.draws

/-- `t` is `s` after `raise K(cause, off, exp, fnd)` (R186): the record and PHASE are written, nothing else. -/
structure ErrorEntry (s t : State) (kind cause off exp fnd : Nat) : Prop where
  phase : t.phase = .error
  kind : t.err.kind.toNat = kind
  cause : t.err.cause.toNat = cause
  offset : t.err.offset = off
  expected : t.err.expected.toNat = exp
  found : t.err.found.toNat = fnd
  pc : t.pc = s.pc
  prev : t.prev = s.prev
  cache : ∀ j : Fin 64, t.cache[j] = s.cache[j]
  out : t.out = s.out
  npix : t.npix = s.npix
  hdr : t.hdr = s.hdr
  rest : SameSurroundings s t

/-- `t` is `s` after a chunk of `len` bytes whose new pixel is `p`, emitted `count` times (R156, R163, R164, R23): every effect of
the chunk, and nothing else. -/
structure Replayed (s t : State) (p : Pixel) (count len : Nat) : Prop where
  out : t.out = s.out ++ List.replicate count p
  npix : t.npix = s.npix + count
  cache : ∀ j : Fin 64, t.cache[j] =
    if j.val = (3 * p.r.toNat + 5 * p.g.toNat + 7 * p.b.toNat + 11 * p.a.toNat) % 64 then .full p else s.cache[j]
  prev : t.prev = p
  pc : t.pc = s.pc + len
  phase : t.phase = s.phase
  hdr : t.hdr = s.hdr
  err : t.err = s.err
  rest : SameSurroundings s t

/-- The Pixel Reconstructor over a whole chunk sequence, as R156 presents it ("Processes chunks in order"); it stops at the
first error. -/
def replayChunks : List Instr → State → Host.Outcome State Fault Refusal
  | [], s => .next s
  | i :: is, s =>
    match exec i s with
    | .next t => if t.phase = .error then .next t else replayChunks is t
    | .fault f => .fault f
    | .refused r => .refused r

/-- A whole container: header, chunks, end marker, and whatever follows it (R50, R51). -/
def container (h : Instr) (chunks : List Instr) (tail : List Byte) : List Byte :=
  encode h ++ (chunks.flatMap encode ++ (endMarkerBytes ++ tail))

/-- No chunk boundary before the end marker shows the marker's eight bytes (R98, R220 (b)). -/
def NoEarlyMarker : List Instr → List Byte → Prop
  | [], _ => True
  | i :: is, tail =>
    startsWithEndMarker ((i :: is).flatMap encode ++ (endMarkerBytes ++ tail)) = false ∧ NoEarlyMarker is tail

end Sys2Proof.Machine
end

