-- ==== Sys2Proof/Certificates/Slice0/Obligations.lean ====
section
/-! DEFINITION. The statements for the provers. Each docstring names the rule of spec/ it formalises. "The engine's turn"
(engineTurn) means that the host has no action pending, or waits for a run that is under way. -/

open Sys2Proof Sys2Proof.Machine

/-! ### Encoding -/

/-- Words written out from the layouts of R81 to R89 decode to the records they stand for: the source's own examples (S7, S8,
S9 of spec/95_test_vectors.md), the worked example of R111 and those of R124, R126, R127, R128. -/
def Obligations.WrittenWordsDecode : Prop :=
  decode .header [0x71, 0x6F, 0x69, 0x66, 0, 0, 0, 2, 0, 0, 0, 2, 4, 0] = .ok (.hdr 2 2 4 0) ∧
  decode .stream [0, 0, 0, 0, 0, 0, 0, 1] = .ok .endMark ∧
  decode .stream [0xFE, 0xA3, 0x89, 0x43] = .ok (.rgb 0xA3 0x89 0x43) ∧
  decode .stream [0xFF, 1, 2, 3, 4] = .ok (.rgba 1 2 3 4) ∧
  decode .stream [0b00000001] = .ok (.index 1) ∧
  decode .stream [0b01111111] = .ok (.diff 1 1 1) ∧
  decode .stream [0b01000000] = .ok (.diff (-2) (-2) (-2)) ∧
  decode .stream [0xA0, 0x88] = .ok (.luma 0 0 0) ∧
  decode .stream [0xBF, 0xFF] = .ok (.luma 31 7 7) ∧
  decode .stream [0x80, 0x00] = .ok (.luma (-32) (-8) (-8)) ∧
  decode .stream [0xC4] = .ok (.run 5)

/-- R90, the dispatch table: total on the leading byte, FE and FF before RUN. -/
def Obligations.DispatchFollowsLeadingByte : Prop :=
  ∀ b : Byte, variantOf b =
    if b.toNat ≤ 0x3F then .index
    else if b.toNat ≤ 0x7F then .diff
    else if b.toNat ≤ 0xBF then .luma
    else if b.toNat ≤ 0xFD then .run
    else if b.toNat = 0xFE then .rgb
    else .rgba

/-- R86, the length function and the pixels emitted: a chunk whose bytes are there decodes to a record of the table's width,
and running it, unless it enters the error, emits the table's number of pixels; HDR has 14 bytes, END 8, and they emit none. -/
def Obligations.LengthAndPixelsFollowLeadingByte : Prop :=
  (∀ (b : Byte) (rest : List Byte), lengthByTable b.toNat ≤ rest.length + 1 →
    ∃ i, decodeChunk (b :: rest) = .ok i ∧ (encode i).length = lengthByTable b.toNat ∧
      ∀ s t : State, s.phase ≠ .error → exec i s = .next t → t.phase ≠ .error →
        t.npix = s.npix + pixelsByTable b.toNat ∧ t.out.length = s.out.length + pixelsByTable b.toNat) ∧
  (∀ (w h : U32) (c cs : Byte) (s t : State), exec (.hdr w h c cs) s = .next t →
    (encode (.hdr w h c cs)).length = 14 ∧ t.npix = s.npix ∧ t.out = s.out) ∧
  (∀ s t : State, exec .endMark s = .next t → (encode .endMark).length = 8 ∧ t.npix = s.npix ∧ t.out = s.out)

/-- R123 to R128, the fields of every chunk by its leading byte, and where a chunk is cut short. -/
def Obligations.ChunkFieldsFollowLeadingByte : Prop :=
  ∀ (b0 : Byte) (rest : List Byte), decodeChunk (b0 :: rest) =
    if h : b0.toNat < 0x40 then .ok (.index ⟨b0.toNat, h⟩)
    else if b0.toNat < 0x80 then
      .ok (.diff ((b0.toNat / 16 % 4 : Nat) - 2) ((b0.toNat / 4 % 4 : Nat) - 2) ((b0.toNat % 4 : Nat) - 2))
    else if b0.toNat < 0xC0 then
      match rest with
      | b1 :: _ => .ok (.luma ((b0.toNat % 64 : Nat) - 32) ((b1.toNat / 16 : Nat) - 8) ((b1.toNat % 16 : Nat) - 8))
      | _ => .reject (.chunkTruncated 2 1)
    else if b0.toNat < 0xFE then .ok (.run (b0.toNat % 64 + 1))
    else if b0.toNat = 0xFE then
      match rest with
      | b1 :: b2 :: b3 :: _ => .ok (.rgb b1 b2 b3)
      | _ => .reject (.chunkTruncated 4 (rest.length + 1))
    else
      match rest with
      | b1 :: b2 :: b3 :: b4 :: _ => .ok (.rgba b1 b2 b3 b4)
      | _ => .reject (.chunkTruncated 5 (rest.length + 1))

/-- R130 and R122: the chunk decoder succeeds, with a well-formed chunk, exactly when the bytes its leading byte asks for are
there, and otherwise fails with one of two named causes. -/
def Obligations.ChunkDecoderIsTotal : Prop :=
  decodeChunk [] = .reject .endMarkerMissing ∧
  ∀ (b0 : Byte) (rest : List Byte),
    (lengthByTable b0.toNat ≤ rest.length + 1 →
      ∃ i, decodeChunk (b0 :: rest) = .ok i ∧ i.WellFormed ∧ i.isChunk = true) ∧
    (rest.length + 1 < lengthByTable b0.toNat →
      decodeChunk (b0 :: rest) = .reject (.chunkTruncated (lengthByTable b0.toNat) (rest.length + 1)))

/-- R98: at a chunk boundary the eight marker bytes are END, though as chunks they would be INDEX records, whatever follows
them; a suffix with another leading byte is never taken for the marker, whatever its payload. -/
def Obligations.EndMarkerShadowsIndex : Prop :=
  ∀ rest : List Byte,
    decode .stream ([0, 0, 0, 0, 0, 0, 0, 1] ++ rest) = .ok .endMark ∧
    decodeChunk ([0, 0, 0, 0, 0, 0, 0, 1] ++ rest) = .ok (.index 0) ∧
    ∀ b0 : Byte, b0 ≠ 0 → decode .stream (b0 :: rest) = decodeChunk (b0 :: rest)

/-- Decode and encode agree: at its place, whatever bytes follow, the encoding (R99) of every well-formed record decodes to it,
unless the bytes at the boundary are the end marker's (R98). -/
def Obligations.DecodeOfEncode : Prop :=
  ∀ (i : Instr) (rest : List Byte), i.WellFormed →
    (i.isChunk = true → startsWithEndMarker (encode i ++ rest) = false) →
    decode i.place (encode i ++ rest) = .ok i

/-- No bit of a record is dropped and each byte sequence has one meaning: what the decoder accepts is well formed, stands at its
place, and is encoded by the very bytes it was read from. -/
def Obligations.EncodeOfDecode : Prop :=
  ∀ (p : Place) (bs : List Byte) (i : Instr), decode p bs = .ok i →
    i.WellFormed ∧ i.place = p ∧ bs = encode i ++ bs.drop i.length

/-! ### Records: results, frames, completion -/

/-- R111, R113: the HDR record completes on every state, copies its four fields unvalidated, sets the cursor to 14 and PHASE to
STREAM, and touches nothing else. -/
def Obligations.HdrRecordCompletes : Prop :=
  ∀ (w h : U32) (c cs : Byte) (s : State), ∃ t, exec (.hdr w h c cs) s = .next t ∧
    t.hdr.width = w ∧ t.hdr.height = h ∧ t.hdr.channels = c ∧ t.hdr.colorspace = cs ∧
    t.pc = 14 ∧ t.phase = .stream ∧
    t.prev = s.prev ∧ (∀ j : Fin 64, t.cache[j] = s.cache[j]) ∧ t.out = s.out ∧ t.npix = s.npix ∧ t.err = s.err ∧
    SameSurroundings s t

/-- R142: END completes on every state, moves the cursor by 8 and ends the run in DONE; no pixel, no slot, no `prev`, no HDR. -/
def Obligations.EndRecordCompletes : Prop :=
  ∀ s : State, ∃ t, exec .endMark s = .next t ∧ t.pc = s.pc + 8 ∧ t.phase = .done ∧
    t.prev = s.prev ∧ (∀ j : Fin 64, t.cache[j] = s.cache[j]) ∧ t.out = s.out ∧ t.npix = s.npix ∧ t.hdr = s.hdr ∧
    t.err = s.err ∧ SameSurroundings s t

/-- R157: RGB completes on every state; the new pixel takes its alpha from `prev`. -/
def Obligations.RgbReplays : Prop :=
  ∀ (r g b : Byte) (s : State), ∃ t, exec (.rgb r g b) s = .next t ∧ Replayed s t ⟨r, g, b, s.prev.a⟩ 1 4

/-- R158: RGBA completes on every state; the new pixel is verbatim. -/
def Obligations.RgbaReplays : Prop :=
  ∀ (r g b a : Byte) (s : State), ∃ t, exec (.rgba r g b a) s = .next t ∧ Replayed s t ⟨r, g, b, a⟩ 1 5

/-- R159: INDEX of a full slot completes and emits the slot's pixel, alpha included; INDEX of an empty slot raises
CACHE_SLOT_EMPTY with the record of R187 before anything is emitted. -/
def Obligations.IndexReplaysOrRaises : Prop :=
  ∀ (i : Fin 64) (s : State),
    (∀ q, s.cache[i] = .full q → ∃ t, exec (.index i) s = .next t ∧ Replayed s t q 1 1) ∧
    (s.cache[i] = .empty → ∃ t, exec (.index i) s = .next t ∧ ErrorEntry s t 2 5 s.pc i.val 0)

/-- R160: DIFF completes on every state; each colour channel is `wrap8` of `prev`'s channel plus its delta, alpha unchanged. -/
def Obligations.DiffReplays : Prop :=
  ∀ (dr dg db : Int) (s : State), ∃ t p, exec (.diff dr dg db) s = .next t ∧ Replayed s t p 1 1 ∧
    (p.r.toNat : Int) = (s.prev.r.toNat + dr) % 256 ∧
    (p.g.toNat : Int) = (s.prev.g.toNat + dg) % 256 ∧
    (p.b.toNat : Int) = (s.prev.b.toNat + db) % 256 ∧
    p.a = s.prev.a

/-- R161: LUMA completes on every state; red and blue add the green delta and their own difference, all modulo 256. -/
def Obligations.LumaReplays : Prop :=
  ∀ (dg drMinusDg dbMinusDg : Int) (s : State), ∃ t p, exec (.luma dg drMinusDg dbMinusDg) s = .next t ∧ Replayed s t p 1 2 ∧
    (p.r.toNat : Int) = (s.prev.r.toNat + dg + drMinusDg) % 256 ∧
    (p.g.toNat : Int) = (s.prev.g.toNat + dg) % 256 ∧
    (p.b.toNat : Int) = (s.prev.b.toNat + dg + dbMinusDg) % 256 ∧
    p.a = s.prev.a

/-- R162: RUN completes on every state; exactly `n` copies of `prev`, one write-back, `prev` unchanged. -/
def Obligations.RunReplays : Prop :=
  ∀ (n : Nat) (s : State), ∃ t, exec (.run n) s = .next t ∧ Replayed s t s.prev n 1

/-- R96: the chunks that change no channel (bytes 6A; A0 88; C0) still emit a copy of `prev` and perform the write-back. The spec
marks this sentence of R96 as its own inference, "[derived: from rules R87, R88, R89 and ... R160, R161, R162]". -/
def Obligations.ChunksThatChangeNothingStillEmit : Prop :=
  decodeChunk [0x6A] = .ok (.diff 0 0 0) ∧ decodeChunk [0xA0, 0x88] = .ok (.luma 0 0 0) ∧
  decodeChunk [0xC0] = .ok (.run 1) ∧
  ∀ s : State,
    (∃ t, exec (.diff 0 0 0) s = .next t ∧ Replayed s t s.prev 1 1) ∧
    (∃ t, exec (.luma 0 0 0) s = .next t ∧ Replayed s t s.prev 1 2) ∧
    (∃ t, exec (.run 1) s = .next t ∧ Replayed s t s.prev 1 1)

/-- R155: the hash over the natural numbers, and the same slot number from wrapping 8-bit arithmetic. The clause on wrapping
arithmetic is the spec's own inference, "[derived: (x mod 256) mod 64 = x mod 64]". -/
def Obligations.HashOverNaturalsAndBytes : Prop :=
  ∀ p : Pixel,
    (pixelHash p).val = (p.r.toNat * 3 + p.g.toNat * 5 + p.b.toNat * 7 + p.a.toNat * 11) % 64 ∧
    p.r.toNat * 3 + p.g.toNat * 5 + p.b.toNat * 7 + p.a.toNat * 11 ≤ 6630 ∧
    (pixelHash p).val = (p.r * 3 + p.g * 5 + p.b * 7 + p.a * 11 : Byte).toNat % 64

/-- R156: what a chunk does to `prev`, the cache and OUT depends on `prev` and the cache alone: HDR, ERR, `pc`, IN, OUT and NPIX
are not read. -/
def Obligations.ReplayReadsOnlyPrevAndCache : Prop :=
  ∀ (i : Instr) (s s' t t' : State), i.isChunk = true → s.prev = s'.prev → s.cache = s'.cache → s.phase = s'.phase →
    exec i s = .next t → exec i s' = .next t' →
    t.prev = t'.prev ∧ t.cache = t'.cache ∧ t.phase = t'.phase ∧
    ∃ ps, t.out = s.out ++ ps ∧ t'.out = s'.out ++ ps ∧ t.npix = s.npix + ps.length ∧ t'.npix = s'.npix + ps.length

/-- R158 and R157, R160 to R162 together: only RGBA and INDEX can change alpha. -/
def Obligations.OnlyRgbaAndIndexChangeAlpha : Prop :=
  ∀ (i : Instr) (s t : State), exec i s = .next t → t.prev.a ≠ s.prev.a →
    (∃ r g b a, i = .rgba r g b a) ∨ (∃ n, i = .index n)

/-- R159 (b): with every full slot holding a pixel of its own hash (R25 (a)), INDEX of a full slot leaves the whole cache as it
is. -/
def Obligations.IndexNeverChangesCache : Prop :=
  ∀ (i : Fin 64) (s t : State), (∀ (j : Fin 64) (p : Pixel), s.cache[j] = .full p → pixelHash p = j) →
    exec (.index i) s = .next t → t.cache = s.cache

/-- R219 (c): an INDEX directly after any chunk that completed, naming the slot of that chunk's last pixel, succeeds and returns that
pixel, whatever the slot held before. The rule's own example is RGBA, the second clause. -/
def Obligations.IndexSeesWriteBackJustBefore : Prop :=
  (∀ (i : Instr) (s t : State), i.WellFormed → i.isChunk = true → s.phase ≠ .error → exec i s = .next t → t.phase ≠ .error →
    t.out.getLast? = some t.prev ∧
    ∃ u, exec (.index (pixelHash t.prev)) t = .next u ∧ u.phase = t.phase ∧ u.out = t.out ++ [t.prev] ∧ u.npix = t.npix + 1 ∧
      u.prev = t.prev ∧ u.cache = t.cache ∧ u.pc = t.pc + 1) ∧
  ∀ (r g b a : Byte) (s : State), ∃ t u, exec (.rgba r g b a) s = .next t ∧ exec (.index (pixelHash ⟨r, g, b, a⟩)) t = .next u ∧
    u.out = s.out ++ [⟨r, g, b, a⟩, ⟨r, g, b, a⟩] ∧ u.prev = ⟨r, g, b, a⟩ ∧ u.cache = t.cache ∧ u.pc = s.pc + 6

/-! ### One step -/

/-- A step runs the decoded record: on the engine's turn, when the bytes fetched at the cursor decode to a record for the
phase, the step is exec of that record. -/
def Obligations.StepRunsDecodedRecord : Prop :=
  ∀ (s : State) (p : Place) (bs : List Byte) (i : Instr), engineTurn s = true →
    (p = .header ∧ s.phase = .header ∨ p = .stream ∧ s.phase = .stream) →
    fetchRecord p s = some bs → decode p bs = .ok i → step s = exec i s

/-- A step runs the record whose encoding (R99) stands in IN at the cursor, unless the end marker's eight bytes stand there
(R98). -/
def Obligations.StepRunsEncodedRecord : Prop :=
  ∀ (s : State) (i : Instr), engineTurn s = true → i.WellFormed →
    (i.place = .header ∧ s.phase = .header ∨ i.place = .stream ∧ s.phase = .stream) →
    InputThere s → Avail s s.pc i.length →
    (∀ k < i.length, Memory.read s.inMem (s.pc + k) = (encode i)[k]?) →
    (i.isChunk = true → ¬ (Avail s s.pc 8 ∧ memRead s s.pc 8 = 1)) →
    step s = exec i s

/-- R111, R112, R182, R185: the HDR step. Magic before length; every outcome with its whole effect. -/
def Obligations.HeaderStepParsesOrRaises : Prop :=
  ∀ s : State, s.phase = .header → s.pc = 0 → engineTurn s = true → InputThere s →
    ∃ t, step s = .next t ∧
      if ¬ (Avail s 0 4 ∧ inByte s 0 = 0x71 ∧ inByte s 1 = 0x6F ∧ inByte s 2 = 0x69 ∧ inByte s 3 = 0x66) then
        ErrorEntry s t 1 1 0 0x716F6966 (foundMagicOf s)
      else if s.inLen < 14 then ErrorEntry s t 1 2 0 14 s.inLen
      else
        t.hdr.width.toNat = memRead s 4 4 ∧ t.hdr.height.toNat = memRead s 8 4 ∧
        t.hdr.channels.toNat = inByte s 12 ∧ t.hdr.colorspace.toNat = inByte s 13 ∧
        t.pc = 14 ∧ t.phase = .stream ∧
        t.prev = s.prev ∧ t.cache = s.cache ∧ t.out = s.out ∧ t.npix = s.npix ∧ t.err = s.err ∧ SameSurroundings s t

/-- R114: for all four field values the HDR step applied to their 14 bytes ends with them in HDR and the cursor at 14. -/
def Obligations.HeaderRoundTrip : Prop :=
  ∀ (w h : U32) (c cs : Byte) (s : State), s.phase = .header → s.pc = 0 → engineTurn s = true → InputThere s →
    14 ≤ s.inLen → (∀ k < 14, Memory.read s.inMem k = (encode (.hdr w h c cs))[k]?) →
    ∃ t, step s = .next t ∧ t.hdr = ⟨w, h, c, cs⟩ ∧ t.pc = 14

/-- R141, R183, R184: the stream step. The end-marker test first, then exhaustion, then truncation, then the decoded chunk's
replay. -/
def Obligations.StreamStepChoosesRecord : Prop :=
  ∀ s : State, s.phase = .stream → engineTurn s = true → InputThere s → s.pc ≤ s.inLen →
    if Avail s s.pc 8 ∧ memRead s s.pc 8 = 1 then step s = exec .endMark s
    else if s.pc = s.inLen then ∃ t, step s = .next t ∧ ErrorEntry s t 1 4 s.pc 8 0
    else if ¬ Avail s s.pc (lengthByTable (inByte s s.pc)) then
      ∃ t, step s = .next t ∧ ErrorEntry s t 1 3 s.pc (lengthByTable (inByte s s.pc)) (s.inLen - s.pc)
    else ∃ bs i, Memory.readBytes s.inMem s.pc (lengthByTable (inByte s s.pc)) = some bs ∧ decodeChunk bs = .ok i ∧
      i.length = lengthByTable (inByte s s.pc) ∧ step s = exec i s

/-- R144: with 1 to 7 bytes left the marker test is false and the step goes on to the chunk at the cursor (decision D26 of the spec);
the run can never end in DONE, and, its input being there, it ends in CHUNK_TRUNCATED, END_MARKER_MISSING or CACHE_SLOT_EMPTY after
at most one step more than there are bytes. That it cannot end in DONE is the spec's own inference, "[derived: from rule R141; every
chunk step consumes at least one byte and the marker needs eight]". -/
def Obligations.FewerThanEightBytesNeverDone : Prop :=
  ∀ s : State, s.phase = .stream → s.host = [] → 1 ≤ s.inLen - s.pc → s.inLen - s.pc ≤ 7 →
    (∀ bs, fetchRecord .stream s = some bs → decode .stream bs = decodeChunk bs) ∧
    (∀ (k : Nat) (t : State), runSteps k s = .next t →
      t.phase = .stream ∨ t.phase = .error ∧ (t.err.cause = 3 ∨ t.err.cause = 4 ∨ t.err.cause = 5)) ∧
    (InputThere s → ∃ k t, k ≤ s.inLen - s.pc + 1 ∧ runSteps k s = .next t ∧
      t.phase = .error ∧ (t.err.cause = 3 ∨ t.err.cause = 4 ∨ t.err.cause = 5))

/-- R23: the cursor's every advance by the engine. -/
def Obligations.CursorAdvancesByRecordLength : Prop :=
  ∀ s t : State, engineTurn s = true → step s = .next t →
    (s.phase = .header → t.phase = .stream → t.pc = 14) ∧
    (s.phase = .stream → t.phase = .stream →
      Avail s s.pc (lengthByTable (inByte s s.pc)) ∧ t.pc = s.pc + lengthByTable (inByte s s.pc)) ∧
    (s.phase = .stream → t.phase = .done → Avail s s.pc 8 ∧ t.pc = s.pc + 8) ∧
    (t.phase = .error → t.pc = s.pc)

/-- R163, R164: a chunk step that does not raise makes exactly one cache write, `cache[Hash(p)] <- full(p)` for the last pixel `p`
it emitted, and sets `prev` to `p`. The HDR step, END and a step that raises write no slot. -/
def Obligations.EveryChunkWritesBackItsLastPixel : Prop :=
  (∀ s t : State, s.phase = .stream → engineTurn s = true → step s = .next t → t.phase = .stream →
    t.out.getLast? = some t.prev ∧ t.cache[pixelHash t.prev] = .full t.prev ∧
    ∀ j : Fin 64, j ≠ pixelHash t.prev → t.cache[j] = s.cache[j]) ∧
  ∀ s t : State, engineTurn s = true → step s = .next t → (s.phase = .header ∨ t.phase = .done ∨ t.phase = .error) →
    ∀ j : Fin 64, t.cache[j] = s.cache[j]

/-- R24: no valid bit goes from 1 to 0 by an engine step. -/
def Obligations.ValidBitsAreNeverCleared : Prop :=
  ∀ s t : State, engineTurn s = true → step s = .next t → ∀ j : Fin 64, s.cache[j].valid = true → t.cache[j].valid = true

/-- R25 (c): an engine step fills at most one slot more and empties none. -/
def Obligations.FullSlotsGrowByAtMostOne : Prop :=
  ∀ s t : State, engineTurn s = true → step s = .next t →
    fullSlots s.cache ≤ fullSlots t.cache ∧ fullSlots t.cache ≤ fullSlots s.cache + 1

/-- R30, R59: OUT is append-only under engine steps, NPIX counts what was appended, at most 62 pixels a step. -/
def Obligations.OutputIsAppendOnly : Prop :=
  ∀ s t : State, engineTurn s = true → step s = .next t →
    ∃ ps, t.out = s.out ++ ps ∧ t.npix = s.npix + ps.length ∧ ps.length ≤ 62

/-- R65, R34: the engine never writes IN, its length, or anything of the host's. -/
def Obligations.EngineNeverWritesInput : Prop :=
  ∀ s t : State, engineTurn s = true → step s = .next t → SameSurroundings s t

/-! ### Errors -/

/-- R186: error entry is precise. A step that enters ERROR writes the record, with a listed kind and cause, and PHASE, and nothing
else; it records the cursor, and the engine has no further step. -/
def Obligations.ErrorEntryIsPrecise : Prop :=
  ∀ s t : State, s.phase.running = true → engineTurn s = true → step s = .next t → t.phase = .error →
    (∃ kind cause exp fnd, ErrorEntry s t kind cause s.pc exp fnd ∧
      (kind = 1 ∧ (cause = 1 ∨ cause = 2 ∨ cause = 3 ∨ cause = 4) ∨ kind = 2 ∧ cause = 5)) ∧
    engineStep t = .next t

/-- R187, R181: kind, expected and found of every error, by its cause. The table is the spec's decision D11, and that FoundMagic is
then not the magic is its own inference, "[derived: a short input is padded with 0x00, which is not a letter of the magic]". -/
def Obligations.ErrorRecordByCause : Prop :=
  ∀ s t : State, s.Inv → s.phase.running = true → engineTurn s = true → step s = .next t → t.phase = .error →
    (t.err.cause = 1 ∧ t.err.kind = 1 ∧ t.err.offset = 0 ∧ t.err.expected = 0x716F6966 ∧
      t.err.found.toNat = foundMagicOf s ∧ t.err.found ≠ 0x716F6966) ∨
    (t.err.cause = 2 ∧ t.err.kind = 1 ∧ t.err.offset = 0 ∧ t.err.expected = 14 ∧ t.err.found.toNat = s.inLen ∧
      4 ≤ s.inLen ∧ s.inLen ≤ 13) ∨
    (t.err.cause = 3 ∧ t.err.kind = 1 ∧ t.err.offset = s.pc ∧ t.err.expected.toNat = lengthByTable (inByte s s.pc) ∧
      t.err.found.toNat = s.inLen - s.pc ∧ 1 ≤ s.inLen - s.pc ∧ s.inLen - s.pc < lengthByTable (inByte s s.pc)) ∨
    (t.err.cause = 4 ∧ t.err.kind = 1 ∧ t.err.offset = s.pc ∧ s.pc = s.inLen ∧ t.err.expected = 8 ∧ t.err.found = 0) ∨
    (t.err.cause = 5 ∧ t.err.kind = 2 ∧ t.err.offset = s.pc ∧ t.err.expected.toNat = inByte s s.pc ∧
      inByte s s.pc ≤ 63 ∧ t.err.found = 0)

/-- R188: CACHE_SLOT_EMPTY is raised by the replay of an INDEX whose slot is empty, and by nothing else. -/
def Obligations.CacheSlotEmptyOnlyFromIndex : Prop :=
  ∀ s t : State, s.phase.running = true → engineTurn s = true → step s = .next t →
    ((t.phase = .error ∧ t.err.kind = 2 ∧ t.err.cause = 5) ↔
      (s.phase = .stream ∧ ∃ bs n, fetchRecord .stream s = some bs ∧ decode .stream bs = .ok (.index n) ∧
        s.cache[n] = .empty))

/-! ### Phases, runs, invariants -/

/-- R29: the numbers of PHASE and its transitions. The transition to IDLE is hardware reset's (R211). The model's choices in it:
host actions stand in a queue and may come between the steps of a run (log entry 3), only bit 0 of a write of CTRL counts (log
entry 16), and hardware reset, which R211 gives no phase, stands in the same queue (log entry 17). -/
def Obligations.PhaseTransitionsAreExactly : Prop :=
  (Phase.code .idle = 0 ∧ Phase.code .header = 1 ∧ Phase.code .stream = 2 ∧ Phase.code .done = 3 ∧ Phase.code .error = 4) ∧
  ∀ s t : State, step s = .next t →
    t.phase = s.phase ∧ s.phase ≠ .header ∨
    t.phase = s.phase ∧ engineTurn s = false ∨
    engineTurn s = true ∧ s.phase = .header ∧ (t.phase = .stream ∨ t.phase = .error) ∨
    engineTurn s = true ∧ s.phase = .stream ∧ (t.phase = .done ∨ t.phase = .error) ∨
    s.phase.running = false ∧ t.phase = .header ∧ (∃ v rest, s.host = .writeReg 0 v :: rest ∧ v % 2 = 1) ∨
    t.phase = .idle ∧ ∃ rest, s.host = .hardwareReset :: rest

/-- The run invariant (R22, R24, R25, R30, R37, R164, R186) is kept by every step, the engine's and the host's, from every state
that has it. -/
def Obligations.RunInvariantIsKept : Prop :=
  ∀ s t : State, s.Inv → step s = .next t → t.Inv

/-- The run invariant holds right after reset. -/
def Obligations.RunInvariantAtReset : Prop := State.reset.Inv

/-- R222, R147: from START the run reaches DONE or ERROR after at most 2 + max(0, IN_LEN - 14) steps. -/
def Obligations.EveryRunEnds : Prop :=
  ∀ s : State, LaunchPremises s → ∃ k t, k ≤ 2 + (s.inLen - 14) ∧ runSteps k s = .next t ∧ t.phase.ended = true

/-- R222: the engine cannot be stuck. In every state with the run invariant the engine's turn has a next state. -/
def Obligations.EngineIsNeverStuck : Prop :=
  ∀ s : State, s.Inv → engineTurn s = true → ∃ t, step s = .next t

/-- R51 (decision D18 of the spec): bytes at or past the final cursor have no effect. A run that ends in DONE ends the same when every byte from there on,
and IN_LEN beyond there, is changed at will. -/
def Obligations.BytesPastEndHaveNoEffect : Prop :=
  ∀ (k : Nat) (s t : State) (m : Memory) (n : Nat), s.Inv → s.host = [] → s.phase.running = true →
    runSteps k s = .next t → t.phase = .done → t.pc ≤ n → (∀ a < t.pc, Memory.read m a = Memory.read s.inMem a) →
    runSteps k { s with inMem := m, inLen := n, inLenReg := n } = .next { t with inMem := m, inLen := n, inLenReg := n }

/-- R113: no step after the HDR step reads HDR. With another header the whole rest of the run is the same. -/
def Obligations.StreamNeverReadsHeader : Prop :=
  ∀ (k : Nat) (s t : State) (h : Header), s.phase = .stream → s.host = [] →
    runSteps k s = .next t → runSteps k { s with hdr := h } = .next { t with hdr := h }

/-- R143: one fused pass. A run over a whole container (header, chunks, end marker, anything after it) ends exactly as replaying
the chunk sequence ends: in DONE with its pixels, or in the first error it meets. -/
def Obligations.FusedPassReplaysChunkSequence : Prop :=
  ∀ (w h : U32) (c cs : Byte) (chunks : List Instr) (tail : List Byte) (s t : State),
    (∀ i ∈ chunks, i.WellFormed ∧ i.isChunk = true) → NoEarlyMarker chunks tail → LaunchPremises s →
    s.inLen = (container (.hdr w h c cs) chunks tail).length →
    (∀ k < s.inLen, Memory.read s.inMem k = (container (.hdr w h c cs) chunks tail)[k]?) →
    replayChunks chunks { s with hdr := ⟨w, h, c, cs⟩, pc := 14, phase := .stream } = .next t →
    runSteps (chunks.length + 2) s =
      .next (if t.phase = .error then t else { t with pc := t.pc + 8, phase := .done })

/-! ### Reset, START and the host -/

/-- R38, R211: hardware reset leaves PHASE at IDLE (from State.reset and from a later reset in any phase), CTRL then reads 0, and in
IDLE the engine does nothing. The values of the other registers are no part of this. That IN stays is the model's (log entry 17), and
so is the queue in which the reset and the host's reads stand, with hostData (log entry 3). -/
def Obligations.HardwareResetLeavesIdle : Prop :=
  State.reset.phase = .idle ∧
  (∀ (s : State) (rest : List HostAct), s.host = .hardwareReset :: rest →
    ∃ t, step s = .next t ∧ t.phase = .idle ∧ t.host = rest ∧ ∀ a, Memory.read t.inMem a = Memory.read s.inMem a) ∧
  (∀ (s : State) (rest : List HostAct), s.phase = .idle → s.host = .readReg 0 :: rest →
    step s = .next { s with host := rest, hostData := .value 0 }) ∧
  (∀ s : State, s.phase = .idle → s.host = [] → step s = .next s)

/-- R37, R212: what START establishes, from IDLE, DONE or ERROR. HDR and ERR are left open. That START stands at the head of a queue
of host actions, of which the rest then stands, is the model's (log entry 3); that the bytes IN_LEN promises must be there at START
is premise P3 and log entry 21. -/
def Obligations.StartEstablishesInitialState : Prop :=
  ∀ (s : State) (rest : List HostAct), s.phase.running = false → s.host = .writeReg 0 1 :: rest →
    (∀ k < s.inLenReg, ∃ b, Memory.read s.inMem k = some b) →
    ∃ t, step s = .next t ∧
      t.prev.r = 0 ∧ t.prev.g = 0 ∧ t.prev.b = 0 ∧ t.prev.a = 255 ∧ (∀ j : Fin 64, t.cache[j] = .empty) ∧
      t.pc = 0 ∧ t.out = [] ∧ t.npix = 0 ∧ t.phase = .header ∧
      t.inLen = s.inLenReg ∧ t.inLenReg = s.inLenReg ∧ (∀ a, Memory.read t.inMem a = Memory.read s.inMem a) ∧
      t.host = rest

/-- R218: host writes of IN, IN_LEN or CTRL during a run, writes of a read-only register, an IN_LEN or a START beyond the
bytes present, and an IN_LEN not below 2^PC_BITS, are given no move (log entries 3, 8, 9, 21). -/
def Obligations.HostActsOutsideTheModelAreRefused : Prop :=
  ∀ (s : State) (rest : List HostAct),
    (∀ a b, s.phase.running = true → s.host = .writeIn a b :: rest → step s = .refused .hostWriteDuringRun) ∧
    (∀ n v, s.phase.running = true → (n = 0 ∨ n = 2) → s.host = .writeReg n v :: rest →
      step s = .refused .hostWriteDuringRun) ∧
    (∀ n v, (n = 1 ∨ 3 ≤ n ∧ n ≤ 13) → s.host = .writeReg n v :: rest → step s = .refused .hostWriteReadOnly) ∧
    (∀ v k, s.phase.running = false → k < v → Memory.read s.inMem k = none → s.host = .writeReg 2 v :: rest →
      step s = .refused .inLenBeyondInput) ∧
    (∀ v k, s.phase.running = false → v % 2 = 1 → k < s.inLenReg → Memory.read s.inMem k = none →
      s.host = .writeReg 0 v :: rest → step s = .refused .inLenBeyondInput) ∧
    (∀ v, s.phase.running = false → (∀ k < v, ∃ b, Memory.read s.inMem k = some b) → 2 ^ Config.pcBits ≤ v →
      s.host = .writeReg 2 v :: rest → step s = .refused .inLenTooWide)

/-- R36: a host read in a register's valid phases returns the register, and changes nothing of the engine. The queue of host actions and
the delivery in hostData are the model's (log entry 3, DESIGN CHOICE), and so is that a read of IN_LEN during a run is valid (log entry
10, DEDUCED: R36 does not call it invalid, though the wait row of R215 names only PHASE). -/
def Obligations.RegisterReadsReturnRegisters : Prop :=
  ∀ (s : State) (rest : List HostAct) (n v : Nat), s.host = .readReg n :: rest →
    (n = 0 ∧ s.phase.running = false ∧ v = 0 ∨
     n = 1 ∧ v = s.phase.code ∨
     n = 2 ∧ v = s.inLenReg ∨
     n = 3 ∧ (s.phase = .done ∨ s.phase = .error) ∧ v = s.pc ∨
     n = 4 ∧ s.phase = .done ∧ v = s.npix ∨
     n = 5 ∧ s.phase = .done ∧ v = s.hdr.width.toNat ∨
     n = 6 ∧ s.phase = .done ∧ v = s.hdr.height.toNat ∨
     n = 7 ∧ s.phase = .done ∧ v = s.hdr.channels.toNat ∨
     n = 8 ∧ s.phase = .done ∧ v = s.hdr.colorspace.toNat ∨
     n = 9 ∧ s.phase = .error ∧ v = s.err.kind.toNat ∨
     n = 10 ∧ s.phase = .error ∧ v = s.err.cause.toNat ∨
     n = 11 ∧ s.phase = .error ∧ v = s.err.offset ∨
     n = 12 ∧ s.phase = .error ∧ v = s.err.expected.toNat ∨
     n = 13 ∧ s.phase = .error ∧ v = s.err.found.toNat) →
    step s = .next { s with host := rest, hostData := .value v }

/-- R31, R35: in DONE the host collects pixel `k` of OUT for every `k` below its length. The queue of host actions and the delivery in
hostData are the model's (log entry 3, DESIGN CHOICE). -/
def Obligations.HostCollectsPixels : Prop :=
  ∀ (s : State) (rest : List HostAct) (k : Nat) (p : Pixel), s.phase = .done → s.host = .readOut k :: rest →
    s.out[k]? = some p → step s = .next { s with host := rest, hostData := .pixel p }

/-- R39: between the end of a run and the next START or hardware reset the engine's state is frozen, whatever else the host
does. The spec speaks of no queue of host actions (log entry 3) and of no write of CTRL with bit 0 clear, which changes nothing here
(log entry 16, DESIGN CHOICE). -/
def Obligations.StateIsFrozenBetweenRuns : Prop :=
  ∀ s t : State, s.phase.running = false → step s = .next t →
    (∀ v rest, s.host = .writeReg 0 v :: rest → v % 2 = 0) → (∀ rest, s.host ≠ .hardwareReset :: rest) →
    t.phase = s.phase ∧ t.pc = s.pc ∧ t.prev = s.prev ∧ t.cache = s.cache ∧ t.out = s.out ∧ t.npix = s.npix ∧
    t.hdr = s.hdr ∧ t.err = s.err

/-- R215, wait: a waiting host leaves every step to the engine while the run lasts, and goes on when it is over; and it can wait for a
cursor, so that its next action falls between any two steps of a run. The waits as actions of their own, and where an action falls,
are the model's (log entry 3). -/
def Obligations.HostWaitsForTheEnd : Prop :=
  ∀ (s : State) (rest : List HostAct),
    (s.host = .waitEnd :: rest →
      (s.phase.running = true → step s = engineStep s) ∧
      (s.phase.running = false → step s = .next { s with host := rest })) ∧
    ∀ n, s.host = .waitCursor n :: rest →
      (s.phase.running = true → s.pc < n → step s = engineStep s) ∧
      (s.phase.running = false ∨ n ≤ s.pc → step s = .next { s with host := rest })

/-- R214 (1), R34: placing a byte of IN changes IN and nothing else. The byte reads back, every other offset reads as before, the
canonical form stays. That host actions stand in a queue is the model's (log entry 3). -/
def Obligations.HostPlacesOneByte : Prop :=
  ∀ (s : State) (rest : List HostAct) (a : Nat) (b : Byte), s.phase.running = false → s.host = .writeIn a b :: rest →
    Memory.wf s.inMem = true →
    ∃ m, step s = .next { s with host := rest, inMem := m } ∧ Memory.read m a = some b ∧
      (∀ k, k ≠ a → Memory.read m k = Memory.read s.inMem k) ∧ Memory.wf m = true

/-- R214, R212: how a run begins from reset. Loading any container, setting IN_LEN and START, one host action a step, leads to
a launched run whose IN is that container, its length being below 2^PC_BITS (premise P3). That the actions stand in a queue is the
model's (log entry 3). -/
def Obligations.LaunchFromReset : Prop :=
  ∀ bs : List Byte, bs.length < 2 ^ Config.pcBits → ∃ t, runSteps (bs.length + 2) { State.reset with host := launchScript bs } = .next t ∧
    LaunchPremises t ∧ t.inLen = bs.length ∧ ∀ k, Memory.read t.inMem k = bs[k]?

/-- R55: OUT laid out in byte-addressed memory: pixel `k` is the four bytes at 4k .. 4k+3 in the order r, g, b, a. -/
def Obligations.OutputByteLayout : Prop :=
  ∀ (out : List Pixel) (k : Nat) (p : Pixel), out[k]? = some p →
    (outBytes out)[4 * k]? = some p.r ∧ (outBytes out)[4 * k + 1]? = some p.g ∧
    (outBytes out)[4 * k + 2]? = some p.b ∧ (outBytes out)[4 * k + 3]? = some p.a

/-- R36 no. 2, R214 (2): between runs the host sets IN_LEN to any number of bytes that are present and that PC_BITS can hold; nothing
else changes. That host actions stand in a queue is the model's (log entry 3). -/
def Obligations.HostWritesInLen : Prop :=
  ∀ (s : State) (rest : List HostAct) (v : Nat), s.phase.running = false → s.host = .writeReg 2 v :: rest →
    (∀ k < v, ∃ b, Memory.read s.inMem k = some b) → v < 2 ^ Config.pcBits →
    step s = .next { s with host := rest, inLenReg := v }

/-- R35, R14, R215: between runs the host reads a byte of IN and changes nothing of the engine; where no byte was placed there is none
to read; during a run IN is not the host's to touch. The queue, hostData and the refusals are the model's (log entries 3 and 25). -/
def Obligations.HostReadsInput : Prop :=
  ∀ (s : State) (rest : List HostAct) (a : Nat), s.host = .readIn a :: rest →
    (∀ b, s.phase.running = false → Memory.read s.inMem a = some b →
      step s = .next { s with host := rest, hostData := .byte b }) ∧
    (s.phase.running = false → Memory.read s.inMem a = none → step s = .refused .noSuchInputByte) ∧
    (s.phase.running = true → step s = .refused .hostReadDuringRun)

/-- R22, R36, R218: the cursor, IN_LEN and ERR.offset stay within PC_BITS bits, whatever PC_BITS is; no step of the engine can make
the cursor overflow. That the unspecified values of these registers have their width is the model's (log entry 6). -/
def Obligations.CursorAndLengthFitTheirWidth : Prop :=
  State.reset.Fits ∧ ∀ s t : State, s.Inv → s.Fits → step s = .next t → t.Fits

/-- R8, R30, R36: NPIX is at most 62 * IN_LEN in every run, and stays within NPIX_BITS bits on an instance wide enough for that bound,
whatever NPIX_BITS is. That an unspecified NPIX has its width is the model's (log entry 6). -/
def Obligations.PixelCountFitsItsWidth : Prop :=
  State.reset.CountFits ∧
  ∀ s t : State, s.Inv → step s = .next t →
    (t.phase ≠ .idle → t.npix ≤ 62 * t.inLen) ∧
    (s.CountFits → 62 * t.inLen < 2 ^ Config.npixBits → t.CountFits)

/-- R36: a host read of a register outside its valid phases delivers an unspecified value of the register's width and changes nothing
of the engine. The queue and hostData are the model's (log entry 3), and that such a read has a move at all is log entry 10. -/
def Obligations.InvalidReadsDeliverAnyValue : Prop :=
  ∀ (s : State) (rest : List HostAct) (n : Nat) (r : HostReg), HostReg.ofNumber n = some r → r.validIn s.phase = false →
    s.host = .readReg n :: rest →
    ∃ v < 2 ^ r.bits, step s = .next { s with host := rest, hostData := .value v, draws := s.draws + 1 }
end

