-- ==== Sys2Proof/Laws/Decode.lean ====
section
/-! SUPPORT. What a successful decode says of the record and of the bytes; the digit laws of `bits` and of the byte lists. -/

namespace Sys2Proof

/-- A field of `hi - lo + 1` bits is below two to that width. -/
theorem bits_lt (b : Byte) (hi lo : Nat) : bits b hi lo < 2 ^ (hi + 1 - lo) := Nat.mod_lt _ (Nat.two_pow_pos _)

@[simp] theorem leBytes_length (n w : Nat) : (leBytes n w).length = n := by
  induction n generalizing w with
  | zero => rfl
  | succ n ih => simp [leBytes, ih]

@[simp] theorem beBytes_length (n w : Nat) : (beBytes n w).length = n := by simp [beBytes]

/-- The number `beNat` reads of some bytes fits in them. -/
theorem beNat_lt (bs : List Byte) : beNat bs < 256 ^ bs.length := by
  induction bs with
  | nil => simp [beNat]
  | cons b bs ih =>
    have hb : b.toNat ≤ 255 := by have := b.isLt; omega
    calc b.toNat * 256 ^ bs.length + beNat bs
        < b.toNat * 256 ^ bs.length + 256 ^ bs.length := by omega
      _ ≤ 255 * 256 ^ bs.length + 256 ^ bs.length := by gcongr
      _ = 256 ^ (bs.length + 1) := by ring

theorem beNat_append (bs cs : List Byte) : beNat (bs ++ cs) = beNat bs * 256 ^ cs.length + beNat cs := by
  induction bs with
  | nil => simp [beNat]
  | cons b bs ih => simp only [List.cons_append, beNat, ih, List.length_append, pow_add]; ring

/-- Big-endian bytes read back as the number they were written from (R10). -/
theorem beNat_beBytes (n w : Nat) : beNat (beBytes n w) = w % 256 ^ n := by
  induction n generalizing w with
  | zero => simp [beBytes, leBytes, beNat, Nat.mod_one]
  | succ n ih =>
    have h : beBytes (n + 1) w = beBytes n (w / 256) ++ [BitVec.ofNat 8 w] := by simp [beBytes, leBytes]
    rw [h, beNat_append, ih]
    simp only [List.length_singleton, pow_one, beNat, List.length_nil, pow_zero, mul_one, Nat.add_zero, BitVec.toNat_ofNat]
    rw [pow_succ' 256 n, Nat.mod_mul]
    omega

/-- A header record whose fields were extracted is long enough and is HDR. -/
theorem headerFields_some {bs : List Byte} {i : Instr} (h : headerFields bs = some i) :
    14 ≤ bs.length ∧ ∃ w ht c s, i = .hdr w ht c s := by
  unfold headerFields at h
  split at h
  · cases h; simp
  · cases h

/-- The header fields are missing only where a byte is (R111). -/
theorem headerFields_none {bs : List Byte} (h : headerFields bs = none) : bs.length < 14 := by
  rcases bs with _ | ⟨_, _ | ⟨_, _ | ⟨_, _ | ⟨_, _ | ⟨_, _ | ⟨_, _ | ⟨_, _ | ⟨_, _ | ⟨_, _ | ⟨_, _ | ⟨_, _ | ⟨_, _ | ⟨_, _ | ⟨_, _⟩⟩⟩⟩⟩⟩⟩⟩⟩⟩⟩⟩⟩⟩ <;>
    first | (cases h; done) | simp

/-- What an accepted header says. -/
theorem decodeHeader_ok {bs : List Byte} {i : Instr} (h : decodeHeader bs = .ok i) :
    14 ≤ bs.length ∧ bs.take 4 = magicBytes ∧ ∃ w ht c s, i = .hdr w ht c s := by
  unfold decodeHeader at h
  split at h
  · cases h
  · next hm =>
    split at h
    · next hf => cases h; exact ⟨(headerFields_some hf).1, not_not.1 hm, (headerFields_some hf).2⟩
    · cases h

/-- The reserved raw values 62 and 63 never reach RUN (R94). -/
theorem bits_le_of_run : ∀ b : Byte, variantOf b = .run → bits b 5 0 ≤ 61 := by decide

/-- Every chunk the decoder accepts is well formed, is a chunk, and has the length of its leading byte, all present. -/
theorem chunkFields_some {b0 : Byte} {rest : List Byte} {i : Instr} (h : chunkFields (b0 :: rest) = some i) :
    i.WellFormed ∧ i.isChunk = true ∧ i.length = chunkLength b0 ∧ i.length ≤ rest.length + 1 := by
  have h1 := bits_lt b0 5 4
  have h2 := bits_lt b0 3 2
  have h3 := bits_lt b0 1 0
  have h4 := bits_lt b0 5 0
  have hc : chunkLength b0 = (variantOf b0).length := rfl
  simp only [chunkFields] at h
  split at h
  · next hv => cases h; simp [Instr.WellFormed, Instr.wf, Instr.isChunk, Instr.length, hc, hv, Variant.length]
  · cases h
  · next hv => cases h; simp [Instr.WellFormed, Instr.wf, Instr.isChunk, Instr.length, hc, hv, Variant.length]
  · cases h
  · next hv => cases h; simp [Instr.WellFormed, Instr.wf, Instr.isChunk, Instr.length, hc, hv, Variant.length]
  · next hv =>
    cases h
    simp [Instr.WellFormed, Instr.wf, Instr.isChunk, Instr.length, hc, hv, Variant.length, diffDeltaOk]
    omega
  · next b1 _ hv =>
    cases h
    have h5 := bits_lt b1 7 4
    have h6 := bits_lt b1 3 0
    simp [Instr.WellFormed, Instr.wf, Instr.isChunk, Instr.length, hc, hv, Variant.length, lumaGreenOk, lumaSideOk]
    omega
  · cases h
  · next hv =>
    cases h
    have := bits_le_of_run b0 hv
    simp [Instr.WellFormed, Instr.wf, Instr.isChunk, Instr.length, hc, hv, Variant.length, runLengthOk]
    omega

/-- A chunk is rejected only for want of its payload (R122, R130). -/
theorem chunkFields_none {b0 : Byte} {rest : List Byte} (h : chunkFields (b0 :: rest) = none) :
    rest.length + 1 < chunkLength b0 := by
  have hc : chunkLength b0 = (variantOf b0).length := rfl
  rw [hc]
  cases hv : variantOf b0 <;> simp only [chunkFields, hv] at h <;> simp only [Variant.length]
  · rcases rest with _ | ⟨_, _ | ⟨_, _ | ⟨_, _⟩⟩⟩ <;> simp_all
  · rcases rest with _ | ⟨_, _ | ⟨_, _ | ⟨_, _ | ⟨_, _⟩⟩⟩⟩ <;> simp_all
  · cases h
  · cases h
  · rcases rest with _ | ⟨_, _⟩ <;> simp_all
  · cases h

/-- The chunk decoder's answer says all of this of the record and the bytes. -/
theorem decodeChunk_ok {bs : List Byte} {i : Instr} (h : decodeChunk bs = .ok i) :
    i.WellFormed ∧ i.isChunk = true ∧ i.length ≤ bs.length ∧ ∃ b0 rest, bs = b0 :: rest ∧ i.length = chunkLength b0 := by
  unfold decodeChunk at h
  split at h
  · cases h
  · next b0 rest =>
    split at h
    · next hf =>
      cases h
      obtain ⟨h1, h2, h3, h4⟩ := chunkFields_some hf
      exact ⟨h1, h2, h4, b0, rest, rfl, h3⟩
    · cases h

/-- The chunk decoder rejects in two cases (R122). -/
theorem decodeChunk_reject {bs : List Byte} {e : DecodeError} (h : decodeChunk bs = .reject e) :
    (bs = [] ∧ e = .endMarkerMissing) ∨
    ∃ b0 rest, bs = b0 :: rest ∧ bs.length < chunkLength b0 ∧ e = .chunkTruncated (chunkLength b0) bs.length := by
  unfold decodeChunk at h
  split at h
  · cases h; exact .inl ⟨rfl, rfl⟩
  · next b0 rest =>
    split at h
    · cases h
    · next hf => cases h; exact .inr ⟨b0, rest, rfl, by simpa using chunkFields_none hf, rfl⟩

/-- The end-marker test looks at eight bytes that are there (R144). -/
theorem startsWithEndMarker_length {bs : List Byte} (h : startsWithEndMarker bs = true) : 8 ≤ bs.length := by
  have h1 : bs.take 8 = endMarkerBytes := by simpa [startsWithEndMarker] using h
  have h2 := congrArg List.length h1
  simp [endMarkerBytes] at h2
  omega

/-- What the stream decoder accepts (R141). -/
theorem decodeStream_ok {bs : List Byte} {i : Instr} (h : decodeStream bs = .ok i) :
    (i = .endMark ∧ startsWithEndMarker bs = true) ∨ (startsWithEndMarker bs = false ∧ decodeChunk bs = .ok i) := by
  unfold decodeStream at h
  split at h
  · next he => cases h; exact .inl ⟨rfl, he⟩
  · next he => exact .inr ⟨by simpa using he, h⟩

/-- The stream decoder rejects only where the chunk decoder does. -/
theorem decodeStream_reject {bs : List Byte} {e : DecodeError} (h : decodeStream bs = .reject e) :
    startsWithEndMarker bs = false ∧ decodeChunk bs = .reject e := by
  unfold decodeStream at h
  split at h
  · cases h
  · next he => exact ⟨by simpa using he, h⟩

/-- What the decoder accepts is well formed, stands where it may, and is all there. -/
theorem decode_ok {p : Place} {bs : List Byte} {i : Instr} (h : decode p bs = .ok i) :
    i.WellFormed ∧ i.place = p ∧ i.length ≤ bs.length := by
  cases p with
  | header =>
    obtain ⟨hl, -, w, ht, c, s, rfl⟩ := decodeHeader_ok h
    exact ⟨rfl, rfl, hl⟩
  | stream =>
    rcases decodeStream_ok h with ⟨rfl, he⟩ | ⟨-, hc⟩
    · exact ⟨rfl, rfl, startsWithEndMarker_length he⟩
    · obtain ⟨hw, hk, hl, -⟩ := decodeChunk_ok hc
      refine ⟨hw, ?_, hl⟩
      cases i <;> first | rfl | cases hk

end Sys2Proof
end

