-- ==== Sys2Proof/Laws/State.lean ====
section
/-! SUPPORT. What each update of the state leaves in each field, true by rfl, so that no proof unfolds an update. -/

namespace Sys2Proof.Machine

section Emit
variable (p : Pixel) (n : Nat) (s : State)

@[simp] theorem emit_phase : (emit p n s).phase = s.phase := rfl
@[simp] theorem emit_pc : (emit p n s).pc = s.pc := rfl
@[simp] theorem emit_prev : (emit p n s).prev = s.prev := rfl
@[simp] theorem emit_cache : (emit p n s).cache = s.cache := rfl
@[simp] theorem emit_out : (emit p n s).out = s.out ++ List.replicate n p := rfl
@[simp] theorem emit_npix : (emit p n s).npix = s.npix + n := rfl
@[simp] theorem emit_hdr : (emit p n s).hdr = s.hdr := rfl
@[simp] theorem emit_err : (emit p n s).err = s.err := rfl

end Emit

section WriteBack
variable (p : Pixel) (s : State)

@[simp] theorem writeBack_phase : (writeBack p s).phase = s.phase := rfl
@[simp] theorem writeBack_pc : (writeBack p s).pc = s.pc := rfl
@[simp] theorem writeBack_prev : (writeBack p s).prev = s.prev := rfl
@[simp] theorem writeBack_cache : (writeBack p s).cache = s.cache.set (pixelHash p) (.full p) := rfl
@[simp] theorem writeBack_out : (writeBack p s).out = s.out := rfl
@[simp] theorem writeBack_npix : (writeBack p s).npix = s.npix := rfl

end WriteBack

section Replay
variable (p : Pixel) (n len : Nat) (s : State)

@[simp] theorem replay_phase : (replay p n len s).phase = s.phase := rfl
@[simp] theorem replay_pc : (replay p n len s).pc = s.pc + len := rfl
@[simp] theorem replay_prev : (replay p n len s).prev = p := rfl
@[simp] theorem replay_cache : (replay p n len s).cache = s.cache.set (pixelHash p) (.full p) := rfl
@[simp] theorem replay_out : (replay p n len s).out = s.out ++ List.replicate n p := rfl
@[simp] theorem replay_npix : (replay p n len s).npix = s.npix + n := rfl
@[simp] theorem replay_hdr : (replay p n len s).hdr = s.hdr := rfl
@[simp] theorem replay_err : (replay p n len s).err = s.err := rfl
@[simp] theorem replay_inMem : (replay p n len s).inMem = s.inMem := rfl
@[simp] theorem replay_inLenReg : (replay p n len s).inLenReg = s.inLenReg := rfl
@[simp] theorem replay_inLen : (replay p n len s).inLen = s.inLen := rfl
@[simp] theorem replay_host : (replay p n len s).host = s.host := rfl
@[simp] theorem replay_hostData : (replay p n len s).hostData = s.hostData := rfl
@[simp] theorem replay_draws : (replay p n len s).draws = s.draws := rfl

end Replay

section RaiseError
variable (c : ErrorCause) (off exp fnd : Nat) (s : State)

@[simp] theorem raiseError_phase : (raiseError c off exp fnd s).phase = .error := rfl
@[simp] theorem raiseError_err : (raiseError c off exp fnd s).err =
    ⟨c.kindCode, c.code, off, BitVec.ofNat 64 exp, BitVec.ofNat 64 fnd⟩ := rfl
@[simp] theorem raiseError_pc : (raiseError c off exp fnd s).pc = s.pc := rfl
@[simp] theorem raiseError_prev : (raiseError c off exp fnd s).prev = s.prev := rfl
@[simp] theorem raiseError_cache : (raiseError c off exp fnd s).cache = s.cache := rfl
@[simp] theorem raiseError_out : (raiseError c off exp fnd s).out = s.out := rfl
@[simp] theorem raiseError_npix : (raiseError c off exp fnd s).npix = s.npix := rfl
@[simp] theorem raiseError_hdr : (raiseError c off exp fnd s).hdr = s.hdr := rfl
@[simp] theorem raiseError_inMem : (raiseError c off exp fnd s).inMem = s.inMem := rfl
@[simp] theorem raiseError_inLenReg : (raiseError c off exp fnd s).inLenReg = s.inLenReg := rfl
@[simp] theorem raiseError_inLen : (raiseError c off exp fnd s).inLen = s.inLen := rfl
@[simp] theorem raiseError_host : (raiseError c off exp fnd s).host = s.host := rfl
@[simp] theorem raiseError_hostData : (raiseError c off exp fnd s).hostData = s.hostData := rfl
@[simp] theorem raiseError_draws : (raiseError c off exp fnd s).draws = s.draws := rfl

end RaiseError

section StartRun
variable (s : State)

@[simp] theorem startRun_phase : (startRun s).phase = .header := rfl
@[simp] theorem startRun_pc : (startRun s).pc = 0 := rfl
@[simp] theorem startRun_prev : (startRun s).prev = startPixel := rfl
@[simp] theorem startRun_cache : (startRun s).cache = emptyCache := rfl
@[simp] theorem startRun_out : (startRun s).out = [] := rfl
@[simp] theorem startRun_npix : (startRun s).npix = 0 := rfl
@[simp] theorem startRun_inMem : (startRun s).inMem = s.inMem := rfl
@[simp] theorem startRun_inLenReg : (startRun s).inLenReg = s.inLenReg := rfl
@[simp] theorem startRun_inLen : (startRun s).inLen = s.inLenReg := rfl
@[simp] theorem startRun_host : (startRun s).host = s.host := rfl
@[simp] theorem startRun_hostData : (startRun s).hostData = s.hostData := rfl
theorem startRun_errOffset_lt : (startRun s).err.offset < 2 ^ Config.pcBits := Nat.mod_lt _ (Nat.two_pow_pos _)

end StartRun

section HardwareReset
variable (s : State)

@[simp] theorem hardwareReset_phase : (hardwareReset s).phase = .idle := rfl
@[simp] theorem hardwareReset_inMem : (hardwareReset s).inMem = s.inMem := rfl
@[simp] theorem hardwareReset_host : (hardwareReset s).host = s.host := rfl
@[simp] theorem hardwareReset_hostData : (hardwareReset s).hostData = s.hostData := rfl

@[simp] theorem hardwareReset_draws : (hardwareReset s).draws = s.draws + 1 := rfl
theorem hardwareReset_npix_lt : (hardwareReset s).npix < 2 ^ Config.npixBits := Nat.mod_lt _ (Nat.two_pow_pos _)

/-- An unspecified value of PC_BITS bits is below 2^PC_BITS. -/
theorem freeOffset_lt (d place : Nat) : freeOffset d place < 2 ^ Config.pcBits :=
  Nat.mod_lt _ (Nat.two_pow_pos _)

end HardwareReset

end Sys2Proof.Machine
end

