-- ==== Sys2Proof/Laws/Exec.lean ====
section
/-! SUPPORT. Said once: everything a record can do. The provers cite these instead of unfolding exec. -/

namespace Sys2Proof.Machine

/-- Every record answers a next state, on every state: no record of the container stops the machine. -/
theorem exec_next (i : Instr) (s : State) : ∃ t, exec i s = .next t := by
  cases i with
  | index n => simp only [exec, execIndex]; split <;> exact ⟨_, rfl⟩
  | _ => exact ⟨_, rfl⟩

/-- INDEX of an empty slot. -/
theorem exec_index_empty {n : Fin 64} {s : State} (h : s.cache[n] = .empty) :
    exec (.index n) s = .next (raiseError .cacheSlotEmpty s.pc n.val 0 s) := by
  simp only [exec, execIndex, h]

/-- INDEX of a full slot. -/
theorem exec_index_full {n : Fin 64} {s : State} {q : Pixel} (h : s.cache[n] = .full q) :
    exec (.index n) s = .next (replay q 1 1 s) := by
  simp only [exec, execIndex, h]

/-- A chunk either replays one pixel, 1 to 62 times, or is an INDEX of an empty slot and enters the error (R156, R159). -/
theorem exec_chunk_cases {i : Instr} {s t : State} (hw : i.WellFormed) (hk : i.isChunk = true) (h : exec i s = .next t) :
    (∃ p n, 1 ≤ n ∧ n ≤ 62 ∧ t = replay p n i.length s) ∨
    (∃ j, i = .index j ∧ s.cache[j] = .empty ∧ t = raiseError .cacheSlotEmpty s.pc j.val 0 s) := by
  cases i with
  | hdr w ht c cs => cases hk
  | endMark => cases hk
  | rgb r g b => cases h; exact .inl ⟨_, 1, by omega, by omega, rfl⟩
  | rgba r g b a => cases h; exact .inl ⟨_, 1, by omega, by omega, rfl⟩
  | index j =>
    simp only [exec, execIndex] at h
    split at h
    · next he => cases h; exact .inr ⟨j, rfl, he, rfl⟩
    · cases h; exact .inl ⟨_, 1, by omega, by omega, rfl⟩
  | diff dr dg db => cases h; exact .inl ⟨_, 1, by omega, by omega, rfl⟩
  | luma dg drg dbg => cases h; exact .inl ⟨_, 1, by omega, by omega, rfl⟩
  | run n =>
    cases h
    have hn : 1 ≤ n ∧ n ≤ 62 := by simpa [Instr.WellFormed, Instr.wf, runLengthOk] using hw
    exact .inl ⟨_, n, hn.1, hn.2, rfl⟩

/-- The slot just written (R163). -/
theorem cache_set_same (v : Vector Slot 64) (p : Pixel) : (v.set (pixelHash p) (.full p))[pixelHash p] = .full p := by
  simp

/-- Every other slot (R163). -/
theorem cache_set_other (v : Vector Slot 64) (p : Pixel) {j : Fin 64} (h : j ≠ pixelHash p) :
    (v.set (pixelHash p) (.full p))[j] = v[j] := by
  have : (pixelHash p).val ≠ j.val := fun e => h (Fin.ext e.symm)
  simp [this]

/-- An empty slot is empty at the start of a run (R24). -/
theorem emptyCache_get (j : Fin 64) : emptyCache[j] = .empty := by simp [emptyCache]

end Sys2Proof.Machine
end

