-- ==== Sys2Proof/Laws/Memory.lean ====
section
/-! SUPPORT. The laws of the input space: read after write, the canonical form, presence, and reading several bytes. -/

namespace Sys2Proof.Machine

@[simp] theorem Memory.read_nil (a : Nat) : Memory.read [] a = none := rfl

theorem Memory.read_cons (k : Nat) (v : Byte) (m : Memory) (a : Nat) :
    Memory.read ((k, v) :: m) a = if k = a then some v else Memory.read m a := rfl

/-- A read of the offset just written gives the byte written. -/
@[simp] theorem Memory.read_write_same (m : Memory) (a : Nat) (b : Byte) :
    Memory.read (Memory.write m a b) a = some b := by
  induction m with
  | nil => simp [Memory.write, Memory.read_cons]
  | cons c m ih =>
    obtain ⟨k, v⟩ := c
    unfold Memory.write
    split
    · simp [Memory.read_cons]
    · split
      · simp [Memory.read_cons]
      · rw [Memory.read_cons, if_neg (by omega), ih]

/-- A write leaves every other offset alone. -/
theorem Memory.read_write_other (m : Memory) {a c : Nat} (b : Byte) (h : c ≠ a) :
    Memory.read (Memory.write m a b) c = Memory.read m c := by
  induction m with
  | nil => simp [Memory.write, Memory.read_cons, Ne.symm h]
  | cons x m ih =>
    obtain ⟨k, v⟩ := x
    unfold Memory.write
    split
    · rw [Memory.read_cons, if_neg (by omega)]
    · split
      · next hk => subst hk; simp [Memory.read_cons, Ne.symm h]
      · simp only [Memory.read_cons, ih]

theorem Memory.wfFrom_cons (lo k : Nat) (v : Byte) (m : Memory) :
    Memory.wfFrom lo ((k, v) :: m) = true ↔ lo ≤ k ∧ Memory.wfFrom (k + 1) m = true := by
  simp [Memory.wfFrom]

theorem Memory.wfFrom_mono {lo lo' : Nat} (h : lo' ≤ lo) {m : Memory} (hm : Memory.wfFrom lo m = true) :
    Memory.wfFrom lo' m = true := by
  cases m with
  | nil => rfl
  | cons x m =>
    obtain ⟨k, v⟩ := x
    rw [Memory.wfFrom_cons] at hm ⊢
    exact ⟨by omega, hm.2⟩

theorem Memory.wfFrom_write {lo a : Nat} (b : Byte) (h : lo ≤ a) {m : Memory} (hm : Memory.wfFrom lo m = true) :
    Memory.wfFrom lo (Memory.write m a b) = true := by
  induction m generalizing lo with
  | nil => simp [Memory.write, Memory.wfFrom, h]
  | cons x m ih =>
    obtain ⟨k, v⟩ := x
    rw [Memory.wfFrom_cons] at hm
    unfold Memory.write
    split
    · rw [Memory.wfFrom_cons, Memory.wfFrom_cons]
      exact ⟨h, by omega, hm.2⟩
    · split
      · next hk => subst hk; rw [Memory.wfFrom_cons]; exact ⟨h, hm.2⟩
      · rw [Memory.wfFrom_cons]; exact ⟨hm.1, ih (by omega) hm.2⟩

/-- Every write keeps the canonical form. -/
theorem Memory.wf_write {m : Memory} (a : Nat) (b : Byte) (hm : Memory.wf m = true) :
    Memory.wf (Memory.write m a b) = true := Memory.wfFrom_write b (Nat.zero_le a) hm

/-- Writing a sequence keeps the canonical form. -/
theorem Memory.wf_writeAll (bs : List Byte) : ∀ {m : Memory} (a : Nat), Memory.wf m = true →
    Memory.wf (Memory.writeAll m a bs) = true := by
  induction bs with
  | nil => exact fun _ h => h
  | cons b bs ih => exact fun a h => ih (a + 1) (Memory.wf_write a b h)

theorem Memory.present_iff (m : Memory) (n : Nat) :
    Memory.present m n = true ↔ ∀ k < n, ∃ b, Memory.read m k = some b := by
  simp [Memory.present, List.all_eq_true, Option.isSome_iff_exists]

/-- A write takes no byte away. -/
theorem Memory.present_write {m : Memory} {n : Nat} (a : Nat) (b : Byte) (h : Memory.present m n = true) :
    Memory.present (Memory.write m a b) n = true := by
  rw [Memory.present_iff] at h ⊢
  intro k hk
  by_cases hka : k = a
  · subst hka; exact ⟨b, Memory.read_write_same m k b⟩
  · rw [Memory.read_write_other m b hka]; exact h k hk

/-- What `readBytes` gives, byte by byte. -/
theorem Memory.readBytes_spec (m : Memory) (n : Nat) : ∀ (a : Nat) (bs : List Byte),
    Memory.readBytes m a n = some bs ↔ bs.length = n ∧ ∀ k < n, Memory.read m (a + k) = bs[k]? := by
  induction n with
  | zero =>
    intro a bs
    simp only [Memory.readBytes, Option.some.injEq, Nat.not_lt_zero, false_imp_iff, implies_true, and_true]
    exact ⟨fun h => by simp [← h], fun h => (List.length_eq_zero_iff.1 h).symm⟩
  | succ n ih =>
    intro a bs
    unfold Memory.readBytes
    constructor
    · intro h
      split at h
      · next b bs' h1 h2 =>
        cases h
        obtain ⟨hl, hr⟩ := (ih _ _).1 h2
        refine ⟨by simp [hl], fun k hk => ?_⟩
        cases k with
        | zero => simpa using h1
        | succ k =>
          have := hr k (by omega)
          rw [show a + (k + 1) = a + 1 + k by omega, this]; simp
      · cases h
    · rintro ⟨hl, hr⟩
      cases bs with
      | nil => simp at hl
      | cons b bs =>
        have h1 : Memory.read m a = some b := by simpa using hr 0 (by omega)
        have h2 : Memory.readBytes m (a + 1) n = some bs := (ih _ _).2
          ⟨by simpa using hl, fun k hk => by
            have := hr (k + 1) (by omega)
            rw [show a + 1 + k = a + (k + 1) by omega, this]; simp⟩
        simp [h1, h2]

theorem Memory.readBytes_length {m : Memory} {a n : Nat} {bs : List Byte}
    (h : Memory.readBytes m a n = some bs) : bs.length = n := ((Memory.readBytes_spec m n a bs).1 h).1

/-- Bytes that are present can be read. -/
theorem Memory.readBytes_of_present {m : Memory} {len : Nat} (h : Memory.present m len = true) (n : Nat) :
    ∀ a, a + n ≤ len → ∃ bs, Memory.readBytes m a n = some bs := by
  induction n with
  | zero => exact fun a _ => ⟨[], rfl⟩
  | succ n ih =>
    intro a ha
    obtain ⟨b, hb⟩ := (Memory.present_iff m len).1 h a (by omega)
    obtain ⟨bs, hbs⟩ := ih (a + 1) (by omega)
    exact ⟨b :: bs, by simp [Memory.readBytes, hb, hbs]⟩

/-- What a loaded input reads as: the bytes placed at their offsets, and elsewhere what it read before. -/
theorem Memory.read_writeAll (bs : List Byte) : ∀ (m : Memory) (a k : Nat), Memory.read (Memory.writeAll m a bs) k =
    if a ≤ k ∧ k < a + bs.length then bs[k - a]? else Memory.read m k := by
  induction bs with
  | nil => intro m a k; rw [if_neg (by simp)]; rfl
  | cons b bs ih =>
    intro m a k
    rw [Memory.writeAll, ih]
    by_cases hk : k = a
    · subst hk
      rw [if_neg (by omega), if_pos (by simp), Memory.read_write_same]; simp
    · rw [Memory.read_write_other _ _ hk]
      by_cases h : a ≤ k ∧ k < a + (b :: bs).length
      · rw [if_pos h, if_pos (by simp at h; omega), show k - a = (k - (a + 1)) + 1 by omega]; rfl
      · rw [if_neg h, if_neg (by simp at h; omega)]

/-- All bytes of an input loaded from offset 0 are there. -/
theorem Memory.read_loaded (bs : List Byte) {k : Nat} (h : k < bs.length) :
    Memory.read (Memory.writeAll [] 0 bs) k = some bs[k] := by
  rw [Memory.read_writeAll, if_pos (by omega), Nat.sub_zero, List.getElem?_eq_getElem h]

end Sys2Proof.Machine
end

