-- ==== Sys2Proof/Laws/PerInstr.lean ====
section
/-! SUPPORT. Facts about every record as syntax, one lemma a constructor. -/

namespace Sys2Proof.Laws

/-- The encoding of a record has the record's encoded width (R80, R81, R82, R99). -/
def EncodedLength.Statement (i : Instr) : Prop := (encode i).length = i.length

theorem EncodedLength.hdr (w h : U32) (c s : Byte) : EncodedLength.Statement (.hdr w h c s) := by
  simp [EncodedLength.Statement, encode, beBytes, leBytes, magicBytes, Instr.length]

theorem EncodedLength.endMark : EncodedLength.Statement .endMark := rfl
theorem EncodedLength.rgb (r g b : Byte) : EncodedLength.Statement (.rgb r g b) := rfl
theorem EncodedLength.rgba (r g b a : Byte) : EncodedLength.Statement (.rgba r g b a) := rfl
theorem EncodedLength.index (i : Fin 64) : EncodedLength.Statement (.index i) := rfl
theorem EncodedLength.diff (dr dg db : Int) : EncodedLength.Statement (.diff dr dg db) := rfl
theorem EncodedLength.luma (dg drg dbg : Int) : EncodedLength.Statement (.luma dg drg dbg) := rfl
theorem EncodedLength.run (n : Nat) : EncodedLength.Statement (.run n) := rfl

/-- Every record's encoding has the record's width. -/
theorem encode_length (i : Instr) : (encode i).length = i.length := by
  cases i with
  | hdr w h c s => exact EncodedLength.hdr w h c s
  | _ => rfl

end Sys2Proof.Laws
end

