-- ==== Sys2Proof/Laws/Step.lean ====
section
/-! SUPPORT. Said once: everything a step can do. -/

namespace Sys2Proof.Machine

/-- On the engine's turn a step is the engine's. -/
theorem step_engine {s : State} (h : engineTurn s = true) : step s = engineStep s := by
  simp [step, machineStep, h]

/-- With no host action pending it is the engine's turn. -/
theorem engineTurn_nil {s : State} (h : s.host = []) : engineTurn s = true := by simp [engineTurn, h]

/-- Otherwise a step is the host's next action. -/
theorem step_host {s : State} {a : HostAct} {rest : List HostAct} (h : s.host = a :: rest) (ht : engineTurn s = false) :
    step s = hostStep a { s with host := rest } := by
  simp [step, machineStep, ht, h]

/-- Where no run is under way the engine changes nothing (R39). -/
theorem engineStep_frozen {s : State} (h : s.phase.running = false) : engineStep s = .next s := by
  unfold engineStep
  cases hp : s.phase <;> simp_all [Phase.running]

/-- What the fetch hands to the decoder: the bytes of IN at the cursor, as many as the window and IN_LEN leave. -/
theorem fetchRecord_some {p : Place} {s : State} {bs : List Byte} (h : fetchRecord p s = some bs) :
    s.pc ≤ s.inLen ∧ bs.length = min (Place.window p) (s.inLen - s.pc) ∧
    ∀ k < bs.length, Memory.read s.inMem (s.pc + k) = bs[k]? := by
  unfold fetchRecord at h
  split at h
  · next hp =>
    obtain ⟨hl, hr⟩ := (Memory.readBytes_spec _ _ _ _).1 h
    exact ⟨hp, hl, fun k hk => hr k (hl ▸ hk)⟩
  · cases h

/-- The fetch succeeds where the run's input is there. -/
theorem fetchRecord_present {p : Place} {s : State} (hp : s.pc ≤ s.inLen) (h : Memory.present s.inMem s.inLen = true) :
    ∃ bs, fetchRecord p s = some bs := by
  obtain ⟨bs, hbs⟩ := Memory.readBytes_of_present h (min (Place.window p) (s.inLen - s.pc)) s.pc (by omega)
  exact ⟨bs, by simp [fetchRecord, hp, hbs]⟩

/-- A record step that answers a next state ran the decoded record or entered the error of its rejection. -/
theorem runRecord_next {p : Place} {s t : State} (h : runRecord p s = .next t) :
    ∃ bs, fetchRecord p s = some bs ∧
      ((∃ i, decode p bs = .ok i ∧ exec i s = .next t) ∨ (∃ e, decode p bs = .reject e ∧ t = raiseDecodeError e s)) := by
  unfold runRecord at h
  split at h
  · cases h
  · next bs hb =>
    refine ⟨bs, hb, ?_⟩
    split at h
    · next i hi => exact .inl ⟨i, hi, h⟩
    · next e he => cases h; exact .inr ⟨e, he, rfl⟩

/-- Every rejection enters phase ERROR with a listed code at the cursor and changes nothing else. -/
theorem raiseDecodeError_eq (e : DecodeError) (s : State) :
    ∃ c exp fnd, raiseDecodeError e s = raiseError c s.pc exp fnd s := by
  cases e <;> exact ⟨_, _, _, rfl⟩

/-- What the engine can do in phase HEADER: parse the header, or enter an error at the cursor. -/
theorem headerStep_cases {s t : State} (hp : s.phase = .header) (h : engineStep s = .next t) :
    (∃ w ht c cs, 14 ≤ s.inLen - s.pc ∧ t = { s with hdr := ⟨w, ht, c, cs⟩, pc := 14, phase := .stream }) ∨
    (∃ c exp fnd, t = raiseError c s.pc exp fnd s) := by
  simp only [engineStep, hp] at h
  obtain ⟨bs, hb, ⟨i, hi, hx⟩ | ⟨e, -, rfl⟩⟩ := runRecord_next h
  · obtain ⟨hl, -, w, ht, c, cs, rfl⟩ := decodeHeader_ok hi
    have hw := (fetchRecord_some hb).2.1
    cases hx
    exact .inl ⟨w, ht, c, cs, by simp only [Place.window] at hw; omega, rfl⟩
  · exact .inr (raiseDecodeError_eq e s)

/-- What the engine can do in phase STREAM: the end marker, a chunk that replays, or an error at the cursor. -/
theorem streamStep_cases {s t : State} (hp : s.phase = .stream) (h : engineStep s = .next t) :
    (s.pc + 8 ≤ s.inLen ∧ t = { s with pc := s.pc + 8, phase := .done }) ∨
    (∃ i p n, i.WellFormed ∧ i.isChunk = true ∧ s.pc + i.length ≤ s.inLen ∧ 1 ≤ n ∧ n ≤ 62 ∧ exec i s = .next t ∧
      t = replay p n i.length s) ∨
    (s.pc ≤ s.inLen ∧ ∃ c exp fnd, t = raiseError c s.pc exp fnd s) := by
  simp only [engineStep, hp] at h
  obtain ⟨bs, hb, ⟨i, hi, hx⟩ | ⟨e, -, rfl⟩⟩ := runRecord_next h
  · obtain ⟨hle, hw, -⟩ := fetchRecord_some hb
    rcases decodeStream_ok hi with ⟨rfl, he⟩ | ⟨-, hc⟩
    · have := startsWithEndMarker_length he
      cases hx
      exact .inl ⟨by omega, rfl⟩
    · obtain ⟨hwf, hk, hl, -⟩ := decodeChunk_ok hc
      rcases exec_chunk_cases hwf hk hx with ⟨p, n, h1, h62, rfl⟩ | ⟨j, rfl, -, rfl⟩
      · exact .inr (.inl ⟨i, p, n, hwf, hk, by omega, h1, h62, hx, rfl⟩)
      · exact .inr (.inr ⟨hle, _, _, _, rfl⟩)
  · exact .inr (.inr ⟨(fetchRecord_some hb).1, raiseDecodeError_eq e s⟩)

/-- A chunk has at least one byte and at most five (R86). -/
theorem Instr.length_bounds (i : Instr) (h : i.isChunk = true) : 1 ≤ i.length ∧ i.length ≤ 5 := by
  cases i <;> first | cases h; done | simp [Instr.length]

@[simp] theorem runSteps_zero (s : State) : runSteps 0 s = .next s := rfl

/-- A run whose first step answers a next state goes on from there. -/
theorem runSteps_succ {s t : State} (k : Nat) (h : step s = .next t) : runSteps (k + 1) s = runSteps k t := by
  have h' : Sys2Proof.core.step s = .next t := h
  simp only [runSteps, Host.Core.run, h']
  rfl

/-- A run that answers a next state took a first step that did. -/
theorem runSteps_succ_next {s u : State} {k : Nat} (h : runSteps (k + 1) s = .next u) :
    ∃ t, step s = .next t ∧ runSteps k t = .next u := by
  cases hs : step s with
  | next t => exact ⟨t, rfl, by rw [← runSteps_succ k hs]; exact h⟩
  | fault r =>
    have h' : Sys2Proof.core.step s = .fault r := hs
    simp only [runSteps, Host.Core.run, h'] at h
    cases h
  | refused r =>
    have h' : Sys2Proof.core.step s = .refused r := hs
    simp only [runSteps, Host.Core.run, h'] at h
    cases h

/-- Where no run is under way and the host has nothing to do, any number of steps changes nothing (R39). -/
theorem runSteps_frozen (k : Nat) {s : State} (hh : s.host = []) (hp : s.phase.running = false) : runSteps k s = .next s := by
  induction k with
  | zero => rfl
  | succ k ih => rw [runSteps_succ k (by rw [step_engine (engineTurn_nil hh), engineStep_frozen hp]), ih]

/-- Everything a host action can do where it is not refused: load a byte, set IN_LEN, begin a run, reset the hardware, or nothing
but the model's own record of what was read. -/
theorem hostStep_cases {a : HostAct} {s t : State} (h : hostStep a s = .next t) :
    (∃ o b, a = .writeIn o b ∧ s.phase.running = false ∧ t = { s with inMem := Memory.write s.inMem o b }) ∨
    (∃ v, a = .writeReg 2 v ∧ s.phase.running = false ∧ Memory.present s.inMem v = true ∧ v < 2 ^ Config.pcBits ∧
      t = { s with inLenReg := v }) ∨
    (∃ v, a = .writeReg 0 v ∧ v % 2 = 1 ∧ s.phase.running = false ∧ Memory.present s.inMem s.inLenReg = true ∧ t = startRun s) ∨
    (a = .hardwareReset ∧ t = hardwareReset s) ∨
    (∃ d n, t = { s with hostData := d, draws := n }) := by
  cases a with
  | writeIn o b =>
    simp only [hostStep, hostWriteIn] at h
    split at h <;> cases h
    exact .inl ⟨o, b, rfl, by simp_all, rfl⟩
  | readIn o =>
    simp only [hostStep, hostReadIn] at h
    split at h
    · cases h
    · split at h <;> cases h
      exact .inr (.inr (.inr (.inr ⟨_, _, rfl⟩)))
  | writeReg n v =>
    simp only [hostStep, hostWriteReg] at h
    split at h
    · cases h
    · next hn =>
      obtain rfl : n = 0 := by unfold HostReg.ofNumber at hn; split at hn <;> simp_all
      simp only [hostWriteCtrl] at h
      split at h
      · cases h
      · split at h
        · cases h; exact .inr (.inr (.inr (.inr ⟨_, _, rfl⟩)))
        · split at h <;> cases h
          exact .inr (.inr (.inl ⟨v, rfl, by omega, by simp_all, by assumption, rfl⟩))
    · next hn =>
      obtain rfl : n = 2 := by unfold HostReg.ofNumber at hn; split at hn <;> simp_all
      simp only [hostWriteInLen] at h
      split at h
      · cases h
      · split at h
        · cases h
        · split at h <;> cases h
          exact .inr (.inl ⟨v, rfl, by simp_all, by simp_all, by omega, rfl⟩)
    · cases h
  | readReg n =>
    simp only [hostStep, hostReadReg] at h
    split at h
    · cases h
    · split at h <;> cases h <;> exact .inr (.inr (.inr (.inr ⟨_, _, rfl⟩)))
  | readOut k =>
    simp only [hostStep, hostReadOut] at h
    split at h
    · split at h <;> cases h
      exact .inr (.inr (.inr (.inr ⟨_, _, rfl⟩)))
    · cases h; exact .inr (.inr (.inr (.inr ⟨_, _, rfl⟩)))
  | waitEnd => cases h; exact .inr (.inr (.inr (.inr ⟨_, _, rfl⟩)))
  | waitCursor n => cases h; exact .inr (.inr (.inr (.inr ⟨_, _, rfl⟩)))
  | hardwareReset => cases h; exact .inr (.inr (.inr (.inl ⟨rfl, rfl⟩)))

end Sys2Proof.Machine
end

