-- ==== Sys2Proof/Tests/Slice0.lean ====
section
/-! SUPPORT. The model's own tests: ill-formed records refused, words written out from the encodings, one step on small states
with results from spec/95_test_vectors.md and the worked examples of the rules, and a witness for every statement that has
hypotheses. -/

namespace Sys2Proof.Tests

open Sys2Proof.Machine

/-! ### Helpers -/

/-- Does a step answer a next state that passes the check? -/
def answers (s : State) (check : State → Bool) : Bool :=
  match step s with
  | .next t => check t
  | .fault _ => false
  | .refused _ => false

/-- A checked answer is a next state. -/
theorem exists_of_answers {s : State} {check : State → Bool} (h : answers s check = true) :
    ∃ t, step s = .next t ∧ check t = true := by
  unfold answers at h
  split at h
  · next t ht => exact ⟨t, ht, h⟩
  · cases h
  · cases h

/-- `H14` of spec/95_test_vectors.md: HDR 1, 1, 4, 0. -/
def h14 : List Byte := [0x71, 0x6F, 0x69, 0x66, 0, 0, 0, 1, 0, 0, 0, 1, 4, 0]

/-- A run launched over these bytes. -/
def launched (bs : List Byte) : State :=
  { State.reset with phase := .header, inMem := Memory.writeAll [] 0 bs, inLenReg := bs.length, inLen := bs.length }

/-- A stream whose first chunk boundary shows these bytes. -/
def inStream (bs : List Byte) : State :=
  { State.reset with
    phase := .stream, pc := 14
    inMem := Memory.writeAll [] 0 (h14 ++ bs), inLenReg := 14 + bs.length, inLen := 14 + bs.length }

/-- The same with another previous pixel. -/
def inStreamWith (p : Pixel) (bs : List Byte) : State := { inStream bs with prev := p }

/-- A machine with one host action pending. -/
def hostIn (ph : Phase) (a : HostAct) : State := { State.reset with phase := ph, host := [a] }

/-- The launched state meets the launch premises when its bytes are there. -/
theorem launched_premises (bs : List Byte) (hm : Memory.wf (Memory.writeAll [] 0 bs) = true)
    (hp : Memory.present (Memory.writeAll [] 0 bs) bs.length = true) : LaunchPremises (launched bs) :=
  ⟨rfl, rfl, rfl, rfl, rfl, rfl, rfl, rfl, hm, hp⟩

/-- The launched state has the run invariant. -/
theorem launched_inv (bs : List Byte) (hm : Memory.wf (Memory.writeAll [] 0 bs) = true)
    (hp : Memory.present (Memory.writeAll [] 0 bs) bs.length = true) : (launched bs).Inv where
  memory := hm
  sampled _ := rfl
  present _ := hp
  atHeader _ := ⟨rfl, rfl⟩
  inStream h := by cases h
  atDone h := by cases h
  atError h := by cases h
  counted _ := ⟨rfl, Nat.zero_le _⟩
  slotHash _ j p h := by
    have : (launched bs).cache[j] = .empty := emptyCache_get j
    rw [this] at h; cases h
  fresh _ _ := ⟨rfl, rfl⟩
  last _ h := absurd rfl h

/-- The stream state has the run invariant. -/
theorem inStream_inv (bs : List Byte) (hm : Memory.wf (Memory.writeAll [] 0 (h14 ++ bs)) = true)
    (hp : Memory.present (Memory.writeAll [] 0 (h14 ++ bs)) (14 + bs.length) = true) : (inStream bs).Inv := by
  have hcache (j : Fin 64) (p : Pixel) (h : (inStream bs).cache[j] = .full p) : pixelHash p = j := by
    rw [show (inStream bs).cache[j] = .empty from emptyCache_get j] at h
    cases h
  constructor <;> simp only [inStream, State.reset] at * <;> simp_all
  all_goals trivial

/-- The bytes of the launched state are there. -/
theorem inputThere_of_present {s : State} (h : Memory.present s.inMem s.inLen = true) : InputThere s :=
  (Memory.present_iff _ _).1 h

/-! ### WellFormed refuses (operand ranges of R99) -/

theorem test_wf_diff_red_high : (Instr.diff 2 0 0).wf = false := by decide
theorem test_wf_diff_green_low : (Instr.diff 0 (-3) 0).wf = false := by decide
theorem test_wf_diff_blue_high : (Instr.diff 0 0 2).wf = false := by decide
theorem test_wf_luma_green_high : (Instr.luma 32 0 0).wf = false := by decide
theorem test_wf_luma_green_low : (Instr.luma (-33) 0 0).wf = false := by decide
theorem test_wf_luma_red_high : (Instr.luma 0 8 0).wf = false := by decide
theorem test_wf_luma_blue_low : (Instr.luma 0 0 (-9)).wf = false := by decide
theorem test_wf_run_zero : (Instr.run 0).wf = false := by decide
theorem test_wf_run_reserved : (Instr.run 63).wf = false := by decide
theorem test_wf_boundaries : (Instr.diff (-2) 1 (-2)).wf = true ∧ (Instr.luma (-32) 7 (-8)).wf = true ∧
    (Instr.run 62).wf = true := by decide

/-! ### Words written out bit by bit from R81 to R89 -/

theorem test_decode_hdr : decode .header [0b01110001, 0b01101111, 0b01101001, 0b01100110,
    0x01, 0x02, 0x03, 0x04, 0x0A, 0x0B, 0x0C, 0x0D, 0xFE, 0xFF] = .ok (.hdr 0x01020304 0x0A0B0C0D 0xFE 0xFF) := by decide
theorem test_decode_end : decode .stream [0, 0, 0, 0, 0, 0, 0, 1, 0xAA] = .ok .endMark := by decide
theorem test_decode_rgb : decode .stream [0b11111110, 0xFE, 0xFF, 0x00] = .ok (.rgb 0xFE 0xFF 0x00) := by decide
theorem test_decode_rgba : decode .stream [0b11111111, 1, 2, 3, 4] = .ok (.rgba 1 2 3 4) := by decide
theorem test_decode_index : decode .stream [0b00111111] = .ok (.index 63) := by decide
theorem test_decode_diff : decode .stream [0b01110001] = .ok (.diff 1 (-2) (-1)) := by decide
theorem test_decode_luma : decode .stream [0b10100101, 0b01111001] = .ok (.luma 5 (-1) 1) := by decide
theorem test_decode_run : decode .stream [0b11111101] = .ok (.run 62) := by decide
/-- V-S7: eight zero bytes are INDEX 0, not the marker. -/
theorem test_decode_zeros : decode .stream [0, 0, 0, 0, 0, 0, 0, 0, 1] = .ok (.index 0) := by decide
/-- V-H5, V-H7, V-T2, R184. -/
theorem test_decode_rejects :
    decode .header [0x51, 0x4F, 0x49, 0x46, 0, 0, 0, 0, 0, 0, 0, 0, 0, 0] = .reject (.magicMismatch 0x514F4946) ∧
    decode .header [0x71, 0x6F, 0x69] = .reject (.magicMismatch 0x716F6900) ∧
    decode .header [0x71, 0x6F, 0x69, 0x66] = .reject (.headerTruncated 4) ∧
    decode .stream [0xFE, 1, 2] = .reject (.chunkTruncated 4 3) ∧
    decode .stream [] = .reject .endMarkerMissing := by decide

/-! ### Opcode-table words -/

theorem test_table_words :
    decodeTableWord 32 0x716F6966 = some (.hdr 0 0 0 0) ∧ decodeTableWord 112 0x716F6966 = some (.hdr 0 0 0 0) ∧
    decodeTableWord 32 0x66696F71 = some (.hdr 0 0 0 0) ∧
    decodeTableWord 64 1 = some .endMark ∧ decodeTableWord 64 (2 ^ 56) = some .endMark ∧
    decodeTableWord 8 0xFE = some (.rgb 0 0 0) ∧ decodeTableWord 32 0x030201FE = some (.rgb 1 2 3) ∧
    decodeTableWord 8 0xFF = some (.rgba 0 0 0 0) ∧ decodeTableWord 8 0x07 = some (.index 7) ∧
    decodeTableWord 8 0x40 = some (.diff (-2) (-2) (-2)) ∧ decodeTableWord 8 0x80 = some (.luma (-32) (-8) (-8)) ∧
    decodeTableWord 8 0xC0 = some (.run 1) := by decide

/-- HDR as the first record after reset (R111). -/
theorem test_fetch_hdr : answers (State.reset.withFetchWord 32 0x716F6966) (fun t =>
    decide (t.phase = .stream ∧ t.pc = 14)) = true := by decide
/-- END as the first record after reset (R142). -/
theorem test_fetch_end : answers (State.reset.withFetchWord 64 1) (fun t => decide (t.phase = .done ∧ t.pc = 22)) = true := by
  decide
/-- RGB as the first record after reset: alpha 255 (R157). -/
theorem test_fetch_rgb : answers (State.reset.withFetchWord 32 0x030201FE) (fun t =>
    decide (t.out = [⟨1, 2, 3, 255⟩] ∧ t.pc = 18)) = true := by decide
/-- INDEX as the first record after reset: every slot is empty (R159 (a)). -/
theorem test_fetch_index : answers (State.reset.withFetchWord 8 0x07) (fun t =>
    decide (t.phase = .error ∧ t.err.cause = 5 ∧ t.pc = 14)) = true := by decide
theorem test_fetch_others :
    answers (State.reset.withFetchWord 8 0xFF) (fun t => decide (t.out = [⟨0, 0, 0, 0⟩])) = true ∧
    answers (State.reset.withFetchWord 8 0x40) (fun t => decide (t.out = [⟨254, 254, 254, 255⟩])) = true ∧
    answers (State.reset.withFetchWord 8 0x80) (fun t => decide (t.out = [⟨216, 224, 216, 255⟩])) = true ∧
    answers (State.reset.withFetchWord 8 0xC0) (fun t => decide (t.out = [⟨0, 0, 0, 255⟩])) = true := by decide

/-! ### One step, results from spec/95_test_vectors.md -/

/-- V-H2: every header value is accepted. -/
theorem test_step_hdr : answers (launched [0x71, 0x6F, 0x69, 0x66, 255, 255, 255, 255, 255, 255, 255, 255, 255, 255]) (fun t =>
    decide (t.hdr = ⟨4294967295, 4294967295, 255, 255⟩ ∧ t.pc = 14 ∧ t.phase = .stream)) = true := by decide
/-- V-H8: the first 13 bytes of H14. -/
theorem test_step_hdr_short : answers (launched [0x71, 0x6F, 0x69, 0x66, 0, 0, 0, 1, 0, 0, 0, 1, 4]) (fun t =>
    decide (t.phase = .error ∧ t.err = ⟨1, 2, 0, 14, 13⟩)) = true := by decide
/-- V-H3: the empty input. -/
theorem test_step_hdr_empty : answers (launched []) (fun t =>
    decide (t.phase = .error ∧ t.err = ⟨1, 1, 0, 0x716F6966, 0⟩)) = true := by decide
/-- V-S2: the marker wins and what follows is not looked at. -/
theorem test_step_end : answers (inStream ([0, 0, 0, 0, 0, 0, 0, 1] ++ [0, 0, 0, 0, 0, 0, 0, 1])) (fun t =>
    decide (t.phase = .done ∧ t.pc = 22 ∧ t.npix = 0)) = true := by decide
/-- V-H9: a header that is the whole input. -/
theorem test_step_no_marker : answers (inStream []) (fun t =>
    decide (t.phase = .error ∧ t.err = ⟨1, 4, 14, 8, 0⟩)) = true := by decide
/-- V-T3 and V-T4. -/
theorem test_step_truncated :
    answers (inStream [0xFF, 1, 2, 3]) (fun t => decide (t.err = ⟨1, 3, 14, 5, 4⟩ ∧ t.pc = 14)) = true ∧
    answers (inStream [0xA0]) (fun t => decide (t.err = ⟨1, 3, 14, 2, 1⟩ ∧ t.out = [])) = true := by decide
/-- V-C1: payload bytes are data; slot 42. -/
theorem test_step_rgb : answers (inStream [0xFE, 0xFE, 0xFF, 0x00]) (fun t =>
    decide (t.out = [⟨254, 255, 0, 255⟩] ∧ t.cache[(42 : Fin 64)] = .full ⟨254, 255, 0, 255⟩)) = true := by decide
/-- V-C2, first chunk: slot 14. -/
theorem test_step_rgba : answers (inStream [0xFF, 1, 2, 3, 4]) (fun t =>
    decide (t.prev = ⟨1, 2, 3, 4⟩ ∧ t.cache[(14 : Fin 64)] = .full ⟨1, 2, 3, 4⟩ ∧ t.pc = 19)) = true := by decide
/-- V-C2, second chunk: INDEX 14. -/
theorem test_step_index : answers
    { inStream [0x0E] with cache := emptyCache.set 14 (.full ⟨1, 2, 3, 4⟩) } (fun t =>
    decide (t.out = [⟨1, 2, 3, 4⟩] ∧ t.prev = ⟨1, 2, 3, 4⟩)) = true := by decide
/-- V-I1: the initial prev is not in the cache. -/
theorem test_step_index_empty : answers (inStream [0x35]) (fun t => decide (t.err = ⟨2, 5, 14, 53, 0⟩ ∧ t.npix = 0)) = true := by
  decide
/-- V-F1, second chunk: byte 70 on 255, 0, 1; the three channels wrap on their own; slot 36. -/
theorem test_step_diff : answers (inStreamWith ⟨255, 0, 1, 255⟩ [0x70]) (fun t =>
    decide (t.out = [⟨0, 254, 255, 255⟩] ∧ t.cache[(36 : Fin 64)] = .full ⟨0, 254, 255, 255⟩)) = true := by decide
/-- V-L1 and its slot 24. -/
theorem test_step_luma : answers (inStreamWith ⟨10, 20, 30, 255⟩ [0xA5, 0x79]) (fun t =>
    decide (t.out = [⟨14, 25, 36, 255⟩] ∧ t.cache[(24 : Fin 64)] = .full ⟨14, 25, 36, 255⟩)) = true := by decide
/-- V-L3, second chunk: the lowest raw fields; slot 16. -/
theorem test_step_luma_wraps : answers (inStreamWith ⟨5, 5, 5, 255⟩ [0x80, 0x00]) (fun t =>
    decide (t.out = [⟨221, 229, 221, 255⟩] ∧ t.pc = 16)) = true := by decide
/-- V-R3: five copies, slot 14, prev unchanged. -/
theorem test_step_run : answers (inStreamWith ⟨1, 2, 3, 4⟩ [0xC4]) (fun t =>
    decide (t.out = List.replicate 5 ⟨1, 2, 3, 4⟩ ∧ t.npix = 5 ∧ t.prev = ⟨1, 2, 3, 4⟩ ∧
      t.cache[(14 : Fin 64)] = .full ⟨1, 2, 3, 4⟩)) = true := by decide
/-- V-R2: FD is a run of 62. -/
theorem test_step_run_longest : answers (inStream [0xFD]) (fun t => decide (t.npix = 62 ∧ t.pc = 15)) = true := by decide

/-- The hash table of 2.1. -/
theorem test_hash : pixelHash ⟨0, 0, 0, 255⟩ = 53 ∧ pixelHash ⟨255, 255, 255, 255⟩ = 38 ∧ pixelHash ⟨163, 137, 67, 255⟩ = 32 ∧
    pixelHash ⟨10, 20, 30, 255⟩ = 9 ∧ pixelHash ⟨64, 0, 0, 255⟩ = 53 ∧ pixelHash ⟨0, 0, 0, 128⟩ = 0 := by decide

/-- Two states can be compared: a stream state is not the reset state. -/
theorem test_states_compare : inStream [] ≠ State.reset := by decide

/-- R35, R57: a host read of IN after a run gives the byte placed and leaves the rest as it is. -/
theorem test_host_reads_in : answers { inStream [0xC0] with phase := .done, host := [.readIn 0] } (fun t =>
    decide (t.hostData = .byte 0x71 ∧ t.phase = .done ∧ t.pc = 14 ∧ t.host = [])) = true := by decide

/-- R215, R29: a host that waits for the cursor 15 polls PHASE in STREAM, after the first chunk and before the second. -/
theorem test_host_polls_in_stream :
    (match runSteps 3 { inStream [0xC0, 0xC0] with host := [.waitCursor 15, .readReg 1, .waitEnd] } with
      | .next t => decide (t.hostData = .value 2 ∧ t.pc = 15 ∧ t.npix = 1 ∧ t.host = [.waitEnd])
      | _ => false) = true := by decide

/-! ### Witnesses: a concrete state and operands for the hypotheses of every statement that has some -/

/-- At every boundary of the table of R86 the bytes are there and the chunk runs without an error; HDR and END run too. -/
theorem witness_LengthAndPixelsFollowLeadingByte :
    (∀ b ∈ [0x00, 0x3F, 0x40, 0x7F, 0x80, 0xBF, 0xC0, 0xFD, 0xFE, (0xFF : Byte)],
      lengthByTable b.toNat ≤ [0, 0, 0, (0 : Byte)].length + 1) ∧
    (State.reset.phase ≠ .error ∧ ∃ t, exec (.run 62) State.reset = .next t ∧ t.phase ≠ .error) ∧
    (∃ t, exec (.hdr 1 1 4 0) State.reset = .next t) ∧ (∃ t, exec .endMark State.reset = .next t) :=
  ⟨by decide, ⟨by decide, _, rfl, by decide⟩, ⟨_, rfl⟩, ⟨_, rfl⟩⟩
theorem witness_ChunkDecoderIsTotal : lengthByTable (0x80 : Byte).toNat ≤ ([0] : List Byte).length + 1 ∧
    ([] : List Byte).length + 1 < lengthByTable (0xBF : Byte).toNat := by decide
theorem witness_EndMarkerShadowsIndex : (0x01 : Byte) ≠ 0 := by decide
theorem witness_DecodeOfEncode : (Instr.luma (-32) 7 (-8)).WellFormed ∧
    ((Instr.index 0).isChunk = true ∧ startsWithEndMarker (encode (.index 0) ++ [0, 0, 0, 0, 0, 0, 0, 1]) = false) ∧
    (Instr.hdr 0 0 0 0).WellFormed := by decide
theorem witness_EncodeOfDecode : decode .stream [0xFD, 9] = .ok (.run 62) ∧
    decode .header (h14 ++ [7]) = .ok (.hdr 1 1 4 0) := by decide
theorem witness_IndexReplaysOrRaises :
    ({ inStream [] with cache := emptyCache.set 63 (.full ⟨1, 0, 0, 4⟩) } : State).cache[(63 : Fin 64)] = .full ⟨1, 0, 0, 4⟩ ∧
    (inStream []).cache[(0 : Fin 64)] = .empty := by decide
theorem witness_ReplayReadsOnlyPrevAndCache :
    (Instr.diff 1 1 1).isChunk = true ∧ (inStream [7]).prev = (inStream []).prev ∧ (inStream [7]).cache = (inStream []).cache ∧
    (inStream [7]).phase = (inStream []).phase ∧ (∃ t, exec (.diff 1 1 1) (inStream [7]) = .next t) ∧
    ∃ t, exec (.diff 1 1 1) (inStream []) = .next t := ⟨rfl, rfl, rfl, rfl, ⟨_, rfl⟩, ⟨_, rfl⟩⟩
theorem witness_OnlyRgbaAndIndexChangeAlpha :
    ∃ t, exec (.rgba 0 0 0 7) State.reset = .next t ∧ t.prev.a ≠ State.reset.prev.a := ⟨_, rfl, by decide⟩
/-- A cache with one full slot, holding a pixel of its hash. -/
theorem witness_IndexNeverChangesCache : (∀ (j : Fin 64) (p : Pixel),
    (emptyCache.set (pixelHash ⟨1, 2, 3, 4⟩) (.full ⟨1, 2, 3, 4⟩))[j] = .full p → pixelHash p = j) ∧
    ∃ t, exec (.index 14) { State.reset with cache := emptyCache.set (pixelHash ⟨1, 2, 3, 4⟩) (.full ⟨1, 2, 3, 4⟩) } = .next t := by
  refine ⟨fun j p h => ?_, exec_next _ _⟩
  by_cases e : j = pixelHash ⟨1, 2, 3, 4⟩
  · subst e; rw [cache_set_same] at h; cases h; rfl
  · rw [cache_set_other _ _ e, emptyCache_get] at h; cases h
theorem witness_StepRunsDecodedRecord :
    (engineTurn (inStream [0xC0]) = true ∧ (inStream [0xC0]).phase = .stream ∧
      fetchRecord .stream (inStream [0xC0]) = some [0xC0] ∧ decode .stream [0xC0] = .ok (.run 1)) ∧
    (engineTurn (launched h14) = true ∧ (launched h14).phase = .header ∧ fetchRecord .header (launched h14) = some h14 ∧
      decode .header h14 = .ok (.hdr 1 1 4 0)) := by decide
theorem witness_StepRunsEncodedRecord :
    engineTurn (inStream [0x00]) = true ∧ (Instr.index 0).WellFormed ∧ (inStream [0x00]).phase = .stream ∧
    InputThere (inStream [0x00]) ∧ Avail (inStream [0x00]) 14 1 ∧
    (∀ k < 1, Memory.read (inStream [0x00]).inMem (14 + k) = (encode (.index 0))[k]?) ∧
    ¬ (Avail (inStream [0x00]) 14 8 ∧ memRead (inStream [0x00]) 14 8 = 1) :=
  ⟨by decide, by decide, rfl, inputThere_of_present (by decide), by decide, by decide, by decide⟩
/-- The three branches at their boundaries: 3 bytes, 13 bytes, 14 bytes. -/
theorem witness_HeaderStepParsesOrRaises :
    (∀ n ≤ 14, (launched (h14.take n)).phase = .header ∧ (launched (h14.take n)).pc = 0 ∧
      engineTurn (launched (h14.take n)) = true) ∧
    InputThere (launched (h14.take 3)) ∧ InputThere (launched (h14.take 13)) ∧ InputThere (launched h14) ∧
    ¬ Avail (launched (h14.take 3)) 0 4 ∧ (launched (h14.take 13)).inLen < 14 ∧ ¬ (launched h14).inLen < 14 :=
  ⟨fun _ _ => ⟨rfl, rfl, rfl⟩, inputThere_of_present (by decide), inputThere_of_present (by decide),
    inputThere_of_present (by decide), by decide, by decide, by decide⟩
theorem witness_HeaderRoundTrip : (launched h14).phase = .header ∧ (launched h14).pc = 0 ∧ engineTurn (launched h14) = true ∧
    InputThere (launched h14) ∧ 14 ≤ (launched h14).inLen ∧
    ∀ k < 14, Memory.read (launched h14).inMem k = (encode (.hdr 1 1 4 0))[k]? :=
  ⟨rfl, rfl, rfl, inputThere_of_present (by decide), by decide, by decide⟩
/-- The four branches of the stream step. -/
theorem witness_StreamStepChoosesRecord :
    (∀ bs, (inStream bs).phase = .stream ∧ engineTurn (inStream bs) = true ∧ (inStream bs).pc ≤ (inStream bs).inLen) ∧
    (InputThere (inStream endMarkerBytes) ∧ Avail (inStream endMarkerBytes) 14 8 ∧ memRead (inStream endMarkerBytes) 14 8 = 1) ∧
    (InputThere (inStream []) ∧ (inStream []).pc = (inStream []).inLen) ∧
    (InputThere (inStream [0xFF, 1, 2, 3]) ∧ ¬ Avail (inStream [0xFF, 1, 2, 3]) 14 5) ∧
    (InputThere (inStream [0xFF, 1, 2, 3, 4]) ∧ Avail (inStream [0xFF, 1, 2, 3, 4]) 14 5) :=
  ⟨fun _ => ⟨rfl, rfl, Nat.le_add_right _ _⟩, ⟨inputThere_of_present (by decide), by decide, by decide⟩,
    ⟨inputThere_of_present (by decide), rfl⟩, ⟨inputThere_of_present (by decide), by decide⟩,
    ⟨inputThere_of_present (by decide), by decide⟩⟩
/-- Every variant, and INDEX of a slot that is full. -/
theorem witness_IndexSeesWriteBackJustBefore :
    (∀ i ∈ [Instr.rgb 1 2 3, .rgba 1 2 3 4, .index 53, .diff (-2) 1 0, .luma 31 (-8) 7, .run 62], i.WellFormed ∧ i.isChunk = true) ∧
    (inStream []).phase ≠ .error ∧ (∃ t, exec (.run 62) (inStream []) = .next t ∧ t.phase ≠ .error) ∧
    ∃ t, exec (.index 53) { inStream [] with cache := emptyCache.set 53 (.full ⟨0, 0, 0, 255⟩) } = .next t ∧ t.phase ≠ .error :=
  ⟨by decide, by decide, ⟨_, rfl, by decide⟩, ⟨_, rfl, by decide⟩⟩
theorem witness_FewerThanEightBytesNeverDone_ends : InputThere (inStream [0xC0]) ∧
    InputThere (inStream [0, 0, 0, 0, 0, 0, 0]) :=
  ⟨inputThere_of_present (by decide), inputThere_of_present (by decide)⟩
/-- One byte left and seven bytes left (V-S4). -/
theorem witness_FewerThanEightBytesNeverDone :
    ((inStream [0xC0]).phase = .stream ∧ (inStream [0xC0]).host = [] ∧ (inStream [0xC0]).inLen - (inStream [0xC0]).pc = 1) ∧
    (inStream [0, 0, 0, 0, 0, 0, 0]).inLen - (inStream [0, 0, 0, 0, 0, 0, 0]).pc = 7 ∧
    (∃ bs, fetchRecord .stream (inStream [0xC0]) = some bs) ∧ ∃ t, runSteps 1 (inStream [0xC0]) = .next t := by
  obtain ⟨t, ht, -⟩ := exists_of_answers (s := inStream [0xC0]) (check := fun _ => true) (by decide)
  exact ⟨⟨rfl, rfl, rfl⟩, rfl, ⟨[0xC0], by decide⟩, t, runSteps_succ 0 ht⟩
/-- Header to stream, stream to stream, stream to done, error: the clauses of the cursor's advance, the phases of the precise
error entry, and the steps that every statement over engine steps speaks of. -/
theorem witness_CursorAdvancesByRecordLength :
    (engineTurn (launched h14) = true ∧ ∃ t, step (launched h14) = .next t ∧ decide (t.phase = .stream) = true) ∧
    (engineTurn (inStream [0xA0, 0x88]) = true ∧
      ∃ t, step (inStream [0xA0, 0x88]) = .next t ∧ decide (t.phase = .stream) = true) ∧
    (∃ t, step (inStream endMarkerBytes) = .next t ∧ decide (t.phase = .done) = true) ∧
    ∃ t, step (inStream [0xA0]) = .next t ∧ decide (t.phase = .error) = true :=
  ⟨⟨rfl, exists_of_answers (by decide)⟩, ⟨rfl, exists_of_answers (by decide)⟩, exists_of_answers (by decide),
    exists_of_answers (by decide)⟩
theorem witness_EveryChunkWritesBackItsLastPixel : (inStream [0xFD]).phase = .stream ∧ engineTurn (inStream [0xFD]) = true ∧
    ∃ t, step (inStream [0xFD]) = .next t ∧ decide (t.phase = .stream) = true := ⟨rfl, rfl, exists_of_answers (by decide)⟩
/-- The steps that write no slot: the header's, END, and one that raises. -/
theorem witness_EveryChunkWritesBackItsLastPixel_none :
    (engineTurn (launched h14) = true ∧ (launched h14).phase = .header ∧ ∃ t, step (launched h14) = .next t ∧ true = true) ∧
    (∃ t, step (inStream endMarkerBytes) = .next t ∧ decide (t.phase = .done) = true) ∧
    (∃ t, step (inStream [0x35]) = .next t ∧ decide (t.phase = .error) = true) :=
  ⟨⟨rfl, rfl, exists_of_answers (check := fun _ => true) (by decide)⟩, exists_of_answers (by decide), exists_of_answers (by decide)⟩
/-- A state with a full slot whose chunk overwrites it (P6), for the statements on valid bits, full slots, OUT and IN. -/
theorem witness_ValidBitsAreNeverCleared :
    engineTurn { inStream [0xFF, 0, 0, 0, 255] with cache := emptyCache.set 53 (.full ⟨64, 0, 0, 255⟩) } = true ∧
    ({ inStream [0xFF, 0, 0, 0, 255] with cache := emptyCache.set 53 (.full ⟨64, 0, 0, 255⟩) } : State).cache[(53 : Fin 64)].valid
      = true ∧
    ∃ t, step { inStream [0xFF, 0, 0, 0, 255] with cache := emptyCache.set 53 (.full ⟨64, 0, 0, 255⟩) } = .next t ∧
      decide (t.cache[(53 : Fin 64)] = .full ⟨0, 0, 0, 255⟩) = true := ⟨rfl, by decide, exists_of_answers (by decide)⟩
theorem witness_FullSlotsGrowByAtMostOne : engineTurn (inStream [0xC0]) = true ∧
    ∃ t, step (inStream [0xC0]) = .next t ∧ decide (fullSlots t.cache = 1) = true := ⟨rfl, exists_of_answers (by decide)⟩
theorem witness_OutputIsAppendOnly : engineTurn (inStream [0xFD]) = true ∧
    ∃ t, step (inStream [0xFD]) = .next t ∧ decide (t.out.length = 62) = true := ⟨rfl, exists_of_answers (by decide)⟩
theorem witness_EngineNeverWritesInput : engineTurn (inStream [0xC0]) = true ∧
    ∃ t, step (inStream [0xC0]) = .next t ∧ true = true := ⟨rfl, exists_of_answers (check := fun _ => true) (by decide)⟩
theorem witness_ErrorEntryIsPrecise : (inStream [0x35]).phase.running = true ∧ engineTurn (inStream [0x35]) = true ∧
    ∃ t, step (inStream [0x35]) = .next t ∧ decide (t.phase = .error) = true := ⟨rfl, rfl, exists_of_answers (by decide)⟩
/-- Each of the five causes is reached from a state with the run invariant: V-H4, V-H8, V-T4, V-H9, V-I1. -/
theorem witness_ErrorRecordByCause :
    ((launched (h14.take 3)).Inv ∧
      ∃ t, step (launched (h14.take 3)) = .next t ∧ decide (t.phase = .error ∧ t.err.cause = 1) = true) ∧
    ((launched (h14.take 13)).Inv ∧
      ∃ t, step (launched (h14.take 13)) = .next t ∧ decide (t.phase = .error ∧ t.err.cause = 2) = true) ∧
    ((inStream [0xA0]).Inv ∧ ∃ t, step (inStream [0xA0]) = .next t ∧ decide (t.phase = .error ∧ t.err.cause = 3) = true) ∧
    ((inStream []).Inv ∧ ∃ t, step (inStream []) = .next t ∧ decide (t.phase = .error ∧ t.err.cause = 4) = true) ∧
    ((inStream [0x3F]).Inv ∧ ∃ t, step (inStream [0x3F]) = .next t ∧ decide (t.phase = .error ∧ t.err.cause = 5) = true) :=
  ⟨⟨launched_inv _ (by decide) (by decide), exists_of_answers (by decide)⟩,
    ⟨launched_inv _ (by decide) (by decide), exists_of_answers (by decide)⟩,
    ⟨inStream_inv _ (by decide) (by decide), exists_of_answers (by decide)⟩,
    ⟨inStream_inv _ (by decide) (by decide), exists_of_answers (by decide)⟩,
    ⟨inStream_inv _ (by decide) (by decide), exists_of_answers (by decide)⟩⟩
theorem witness_CacheSlotEmptyOnlyFromIndex : (inStream [0x3F]).phase.running = true ∧ engineTurn (inStream [0x3F]) = true ∧
    (∃ t, step (inStream [0x3F]) = .next t ∧ decide (t.phase = .error ∧ t.err.kind = 2 ∧ t.err.cause = 5) = true) ∧
    fetchRecord .stream (inStream [0x3F]) = some [0x3F] ∧ decode .stream [0x3F] = .ok (.index 63) :=
  ⟨rfl, rfl, exists_of_answers (by decide), by decide, by decide⟩
/-- One step for each clause of the transitions: frozen, host read during a run, header to stream and to error, stream to done
and to error, START, hardware reset. -/
theorem witness_PhaseTransitionsAreExactly :
    (∃ t, step State.reset = .next t ∧ decide (t.phase = .idle) = true) ∧
    (∃ t, step (hostIn .header (.readReg 1)) = .next t ∧ decide (t.phase = .header ∧ t.hostData = .value 1) = true) ∧
    (∃ t, step (launched h14) = .next t ∧ decide (t.phase = .stream) = true) ∧
    (∃ t, step (launched []) = .next t ∧ decide (t.phase = .error) = true) ∧
    (∃ t, step (inStream endMarkerBytes) = .next t ∧ decide (t.phase = .done) = true) ∧
    (∃ t, step (inStream []) = .next t ∧ decide (t.phase = .error) = true) ∧
    (∃ t, step (hostIn .error (.writeReg 0 1)) = .next t ∧ decide (t.phase = .header) = true) ∧
    (∃ t, step (hostIn .stream .hardwareReset) = .next t ∧ decide (t.phase = .idle) = true) :=
  ⟨exists_of_answers (by decide), exists_of_answers (by decide), exists_of_answers (by decide), exists_of_answers (by decide),
    exists_of_answers (by decide), exists_of_answers (by decide), exists_of_answers (by decide), exists_of_answers (by decide)⟩
theorem witness_RunInvariantIsKept : (inStream [0xFD]).Inv ∧
    ∃ t, step (inStream [0xFD]) = .next t ∧ decide (t.npix = 62 * (t.pc - 14)) = true :=
  ⟨inStream_inv _ (by decide) (by decide), exists_of_answers (by decide)⟩
theorem witness_EveryRunEnds : LaunchPremises (launched (h14 ++ [0xFD, 0x35])) ∧ LaunchPremises (launched []) :=
  ⟨launched_premises _ (by decide) (by decide), launched_premises _ (by decide) (by decide)⟩
theorem witness_EngineIsNeverStuck : (inStream [0xFF]).Inv ∧ engineTurn (inStream [0xFF]) = true :=
  ⟨inStream_inv _ (by decide) (by decide), rfl⟩
/-- A run of one step to DONE; another byte placed at its final cursor, and IN_LEN one more. -/
theorem witness_BytesPastEndHaveNoEffect : (inStream endMarkerBytes).Inv ∧ (inStream endMarkerBytes).host = [] ∧
    (inStream endMarkerBytes).phase.running = true ∧
    (∃ t, runSteps 1 (inStream endMarkerBytes) = .next t ∧ decide (t.phase = .done ∧ t.pc = 22) = true) ∧
    ∀ a < 22, Memory.read (Memory.write (inStream endMarkerBytes).inMem 22 0xAA) a = Memory.read (inStream endMarkerBytes).inMem a := by
  obtain ⟨t, ht, hd⟩ := exists_of_answers (s := inStream endMarkerBytes)
    (check := fun t => decide (t.phase = .done ∧ t.pc = 22)) (by decide)
  exact ⟨inStream_inv _ (by decide) (by decide), rfl, rfl, ⟨t, runSteps_succ 0 ht, hd⟩,
    fun a ha => Memory.read_write_other _ _ (by omega)⟩
theorem witness_StreamNeverReadsHeader : (inStream [0xC0]).phase = .stream ∧ (inStream [0xC0]).host = [] ∧
    ∃ t, runSteps 1 (inStream [0xC0]) = .next t := by
  obtain ⟨t, ht, -⟩ := exists_of_answers (s := inStream [0xC0]) (check := fun _ => true) (by decide)
  exact ⟨rfl, rfl, t, runSteps_succ 0 ht⟩
/-- Two chunks and the marker; and one chunk that raises. -/
theorem witness_FusedPassReplaysChunkSequence :
    ((∀ i ∈ [Instr.run 3, .index 53], i.WellFormed ∧ i.isChunk = true) ∧ NoEarlyMarker [.run 3, .index 53] [0xAA] ∧
      LaunchPremises (launched (container (.hdr 0 0 3 1) [.run 3, .index 53] [0xAA])) ∧
      ∃ t, replayChunks [.run 3, .index 53]
        { launched (container (.hdr 0 0 3 1) [.run 3, .index 53] [0xAA]) with hdr := ⟨0, 0, 3, 1⟩, pc := 14, phase := .stream }
          = .next t) ∧
    (NoEarlyMarker [.index 53] [] ∧ ∃ t, replayChunks [.index 53]
        { launched (container (.hdr 1 1 4 0) [.index 53] []) with hdr := ⟨1, 1, 4, 0⟩, pc := 14, phase := .stream }
          = .next t ∧ t.phase = .error) :=
  ⟨⟨by decide, ⟨by decide, by decide, trivial⟩, launched_premises _ (by decide) (by decide), _, rfl⟩,
    ⟨⟨by decide, trivial⟩, _, rfl, rfl⟩⟩
theorem witness_FusedPassReplaysChunkSequence_bytes :
    let bs := container (.hdr 0 0 3 1) [.run 3, .index 53] [0xAA]
    (launched bs).inLen = bs.length ∧ ∀ k < (launched bs).inLen, Memory.read (launched bs).inMem k = bs[k]? := by decide
theorem witness_HardwareResetLeavesIdle : (hostIn .stream .hardwareReset).host = [.hardwareReset] ∧
    (hostIn .stream .hardwareReset).phase.running = true ∧
    ((hostIn .error .hardwareReset).host = [.hardwareReset] ∧ (hostIn .error .hardwareReset).phase.running = false) ∧
    ((hostIn .idle (.readReg 0)).phase = .idle ∧ (hostIn .idle (.readReg 0)).host = [.readReg 0]) ∧
    State.reset.phase = .idle ∧ State.reset.host = [] := ⟨rfl, rfl, ⟨rfl, rfl⟩, ⟨rfl, rfl⟩, rfl, rfl⟩
/-- START from each of IDLE, DONE and ERROR, with IN_LEN 0 and with a byte there. -/
theorem witness_StartEstablishesInitialState :
    (∀ ph, ph.running = false → (hostIn ph (.writeReg 0 1)).phase.running = false ∧
      (hostIn ph (.writeReg 0 1)).host = [.writeReg 0 1] ∧
      ∀ k < (hostIn ph (.writeReg 0 1)).inLenReg, ∃ b, Memory.read (hostIn ph (.writeReg 0 1)).inMem k = some b) ∧
    (∀ k < 1, ∃ b : Byte, Memory.read [(0, 0x71)] k = some b) :=
  ⟨fun _ h => ⟨h, rfl, fun k hk => absurd hk (Nat.not_lt_zero k)⟩, fun k hk => ⟨0x71, by
    have : k = 0 := by omega
    subst this; rfl⟩⟩
theorem witness_HostActsOutsideTheModelAreRefused :
    ((hostIn .header (.writeIn 0 1)).phase.running = true ∧ (hostIn .header (.writeIn 0 1)).host = [.writeIn 0 1]) ∧
    ((hostIn .stream (.writeReg 0 1)).phase.running = true ∧ (hostIn .stream (.writeReg 0 1)).host = [.writeReg 0 1]) ∧
    ((hostIn .stream (.writeReg 2 0)).phase.running = true ∧ (hostIn .stream (.writeReg 2 0)).host = [.writeReg 2 0]) ∧
    ((hostIn .done (.writeReg 1 0)).host = [.writeReg 1 0] ∧ (hostIn .done (.writeReg 3 0)).host = [.writeReg 3 0] ∧
      (hostIn .error (.writeReg 13 0)).host = [.writeReg 13 0]) ∧
    ((hostIn .idle (.writeReg 2 1)).phase.running = false ∧ Memory.read (hostIn .idle (.writeReg 2 1)).inMem 0 = none ∧
      (hostIn .idle (.writeReg 2 1)).host = [.writeReg 2 1]) ∧
    (({ hostIn .idle (.writeReg 0 1) with inLenReg := 1 } : State).phase.running = false ∧
      Memory.read ({ hostIn .idle (.writeReg 0 1) with inLenReg := 1 } : State).inMem 0 = none ∧
      ({ hostIn .idle (.writeReg 0 1) with inLenReg := 1 } : State).host = [.writeReg 0 1]) := by decide
/-- Every register number 0..8 in DONE and 9..13 in ERROR: the queue and the phase of its clause. -/
theorem witness_RegisterReadsReturnRegisters :
    (∀ n ≤ 8, (hostIn .done (.readReg n)).host = [.readReg n] ∧ (hostIn .done (.readReg n)).phase = .done ∧
      (hostIn .done (.readReg n)).phase.running = false) ∧
    (∀ n, 9 ≤ n → n ≤ 13 → (hostIn .error (.readReg n)).host = [.readReg n] ∧ (hostIn .error (.readReg n)).phase = .error) :=
  ⟨fun _ _ => ⟨rfl, rfl, rfl⟩, fun _ _ _ => ⟨rfl, rfl⟩⟩
theorem witness_HostCollectsPixels :
    ({ hostIn .done (.readOut 0) with out := [⟨1, 2, 3, 4⟩], npix := 1 } : State).phase = .done ∧
    ({ hostIn .done (.readOut 0) with out := [⟨1, 2, 3, 4⟩], npix := 1 } : State).host = [.readOut 0] ∧
    ({ hostIn .done (.readOut 0) with out := [⟨1, 2, 3, 4⟩], npix := 1 } : State).out[0]? = some ⟨1, 2, 3, 4⟩ := ⟨rfl, rfl, rfl⟩
theorem witness_StateIsFrozenBetweenRuns : (hostIn .done (.writeIn 5 9)).phase.running = false ∧
    (∃ t, step (hostIn .done (.writeIn 5 9)) = .next t ∧ decide (Memory.read t.inMem 5 = some 9) = true) ∧
    (∀ v rest, (hostIn .done (.writeIn 5 9)).host = .writeReg 0 v :: rest → v % 2 = 0) ∧
    ∀ rest, (hostIn .done (.writeIn 5 9)).host ≠ .hardwareReset :: rest :=
  ⟨rfl, exists_of_answers (by decide), fun _ _ h => (by cases h), fun _ h => (by cases h)⟩
/-- A write of CTRL with bit 0 clear (log entry 16). -/
theorem witness_StateIsFrozenBetweenRuns_ctrl : (hostIn .error (.writeReg 0 2)).phase.running = false ∧
    (∃ t, step (hostIn .error (.writeReg 0 2)) = .next t ∧ decide (t.phase = .error) = true) ∧
    (∀ v rest, (hostIn .error (.writeReg 0 2)).host = .writeReg 0 v :: rest → v % 2 = 0) ∧
    ∀ rest, (hostIn .error (.writeReg 0 2)).host ≠ .hardwareReset :: rest :=
  ⟨rfl, exists_of_answers (by decide), fun _ _ h => (by cases h; rfl), fun _ h => (by cases h)⟩
theorem witness_HostWaitsForTheEnd : (hostIn .stream .waitEnd).host = [.waitEnd] ∧
    (hostIn .stream .waitEnd).phase.running = true ∧ (hostIn .error .waitEnd).phase.running = false := ⟨rfl, rfl, rfl⟩
/-- One byte before the offset waited for, at it, and after the end of a run. -/
theorem witness_HostWaitsForTheEnd_cursor :
    (∀ n, ({ inStream [] with host := [.waitCursor n] } : State).host = [.waitCursor n] ∧
      ({ inStream [] with host := [.waitCursor n] } : State).phase.running = true) ∧
    (inStream []).pc < 15 ∧ 14 ≤ (inStream []).pc ∧ (hostIn .done (.waitCursor 15)).host = [.waitCursor 15] ∧
    (hostIn .done (.waitCursor 15)).phase.running = false := ⟨fun _ => ⟨rfl, rfl⟩, by decide, by decide, rfl, rfl⟩
theorem witness_HostPlacesOneByte : (hostIn .idle (.writeIn 0 0x71)).phase.running = false ∧
    (hostIn .idle (.writeIn 0 0x71)).host = [.writeIn 0 0x71] ∧ Memory.wf (hostIn .idle (.writeIn 0 0x71)).inMem = true :=
  ⟨rfl, rfl, rfl⟩
/-- A machine whose host has placed `n` bytes and then acts. -/
def loadedZeros (n : Nat) (a : HostAct) : State := { hostIn .idle a with inMem := Memory.writeAll [] 0 (List.replicate n 0) }
/-- Its bytes are there. -/
theorem loadedZeros_read (n : Nat) (a : HostAct) : ∀ k < n, ∃ b, Memory.read (loadedZeros n a).inMem k = some b :=
  fun _ hk => ⟨_, Memory.read_loaded _ (by simpa using hk)⟩
/-- The largest IN_LEN of an instance, whatever PC_BITS is. -/
theorem witness_HostWritesInLen (v : Nat) (hv : v = 2 ^ Config.pcBits - 1) :
    (loadedZeros v (.writeReg 2 v)).phase.running = false ∧ (loadedZeros v (.writeReg 2 v)).host = [.writeReg 2 v] ∧
    (∀ k < v, ∃ b, Memory.read (loadedZeros v (.writeReg 2 v)).inMem k = some b) ∧ v < 2 ^ Config.pcBits := by
  have := Nat.two_pow_pos Config.pcBits
  exact ⟨rfl, rfl, loadedZeros_read v _, by omega⟩
/-- The smallest IN_LEN that is too wide. -/
theorem witness_HostActsOutsideTheModelAreRefused_wide (v : Nat) (hv : v = 2 ^ Config.pcBits) :
    (loadedZeros v (.writeReg 2 v)).phase.running = false ∧ (loadedZeros v (.writeReg 2 v)).host = [.writeReg 2 v] ∧
    (∀ k < v, ∃ b, Memory.read (loadedZeros v (.writeReg 2 v)).inMem k = some b) ∧ 2 ^ Config.pcBits ≤ v :=
  ⟨rfl, rfl, loadedZeros_read v _, by omega⟩
/-- The shortest container and the longest of an instance. -/
theorem witness_LaunchFromReset : ([] : List Byte).length < 2 ^ Config.pcBits ∧
    (List.replicate (2 ^ Config.pcBits - 1) (0 : Byte)).length < 2 ^ Config.pcBits := by
  have := Nat.two_pow_pos Config.pcBits
  simp
/-- Between runs and during one; a byte that is there and one that is not. -/
theorem witness_HostReadsInput : (loadedZeros 1 (.readIn 0)).host = [.readIn 0] ∧
    (loadedZeros 1 (.readIn 0)).phase.running = false ∧ Memory.read (loadedZeros 1 (.readIn 0)).inMem 0 = some 0 ∧
    (Memory.read (loadedZeros 1 (.readIn 1)).inMem 1 = none ∧ (loadedZeros 1 (.readIn 1)).phase.running = false) ∧
    (hostIn .stream (.readIn 0)).host = [.readIn 0] ∧ (hostIn .stream (.readIn 0)).phase.running = true :=
  ⟨rfl, rfl, by decide, ⟨by decide, rfl⟩, rfl, rfl⟩
/-- A register of each kind of phase, read outside its phases. -/
theorem witness_InvalidReadsDeliverAnyValue :
    (HostReg.ofNumber 4 = some .npix ∧ HostReg.npix.validIn .error = false ∧ (hostIn .error (.readReg 4)).host = [.readReg 4]) ∧
    (HostReg.ofNumber 9 = some .errKind ∧ HostReg.errKind.validIn .done = false) ∧
    (HostReg.ofNumber 0 = some .ctrl ∧ HostReg.ctrl.validIn .stream = false) ∧
    (HostReg.ofNumber 3 = some .pc ∧ HostReg.pc.validIn .idle = false) := by decide
/-- Right after reset, and a step that ends a run: the bound of an instance of any width is met by an input of no bytes. -/
theorem witness_PixelCountFitsItsWidth :
    State.reset.CountFits ∧ (launched []).Inv ∧ (launched []).CountFits ∧
    ∃ t, step (launched []) = .next t ∧ t.phase ≠ .idle ∧ 62 * t.inLen < 2 ^ Config.npixBits := by
  have := Nat.two_pow_pos Config.npixBits
  exact ⟨this, launched_inv _ (by decide) (by decide), this, _, rfl, by decide, this⟩
/-- Right after reset, and in a run whose only step raises. -/
theorem witness_CursorAndLengthFitTheirWidth :
    (State.reset.Inv ∧ State.reset.Fits ∧ ∃ t, step State.reset = .next t) ∧
    ((launched []).Inv ∧ (launched []).Fits ∧ ∃ t, step (launched []) = .next t ∧ decide (t.phase = .error) = true) := by
  have := Nat.two_pow_pos Config.pcBits
  refine ⟨⟨?_, ⟨this, this, this, this⟩, _, rfl⟩, launched_inv _ (by decide) (by decide), ⟨this, this, this, this⟩,
    exists_of_answers (by decide)⟩
  constructor <;> simp [State.reset, Phase.running, Memory.wf, Memory.wfFrom]
theorem witness_OutputByteLayout : ([⟨1, 2, 3, 4⟩, ⟨5, 6, 7, 8⟩] : List Pixel)[1]? = some ⟨5, 6, 7, 8⟩ ∧
    (outBytes [⟨1, 2, 3, 4⟩, ⟨5, 6, 7, 8⟩])[6]? = some 7 := ⟨rfl, rfl⟩

end Sys2Proof.Tests
end

section
/-! The bound on NPIX (R8, R30): what one engine step and one host action do to NPIX and to the IN_LEN it is bounded by. -/

namespace Sys2Proof.Machine

/-- Outside IDLE the invariant bounds NPIX by the input: no byte emits more than 62 pixels, and the cursor stays in the input. -/
theorem State.Inv.npix_le {s : State} (hi : s.Inv) (hp : s.phase ≠ .idle) : s.npix ≤ 62 * s.inLen := by
  obtain ⟨hlen, hcount⟩ := hi.counted hp
  cases h : s.phase with
  | idle => exact absurd h hp
  | header => simp [hlen, (hi.atHeader h).2]
  | stream => have := (hi.inStream h).2; omega
  | done => obtain ⟨-, hpc, -⟩ := hi.atDone h; omega
  | error => obtain ⟨-, hpc, -⟩ := hi.atError h; omega

/-- An engine step of a run keeps NPIX within the input: a chunk of at least one byte emits at most 62 pixels, every other step
emits none (R30, R86). -/
theorem engineStep_npix_le {s t : State} (hi : s.Inv) (hp : s.phase ≠ .idle) (h : engineStep s = .next t) :
    t.npix ≤ 62 * t.inLen := by
  have hle := hi.npix_le hp
  cases hph : s.phase with
  | idle => exact absurd hph hp
  | header =>
    rcases headerStep_cases hph h with ⟨_, _, _, _, -, rfl⟩ | ⟨_, _, _, rfl⟩
    · exact hle
    · simpa using hle
  | stream =>
    rcases streamStep_cases hph h with ⟨-, rfl⟩ | ⟨i, p, n, -, hk, hfit, -, hn, -, rfl⟩ | ⟨-, _, _, _, rfl⟩
    · exact hle
    · have hcount := (hi.counted hp).2
      have hstart := (hi.inStream hph).1
      have hbyte := (Instr.length_bounds i hk).1
      simp only [replay_npix, replay_inLen]
      omega
    · simpa using hle
  | done => rw [engineStep_frozen (by simp [hph, Phase.running])] at h; cases h; exact hle
  | error => rw [engineStep_frozen (by simp [hph, Phase.running])] at h; cases h; exact hle

/-- A host action keeps PHASE, NPIX and the run's IN_LEN, or begins a run at NPIX 0, or resets to IDLE with some NPIX of its width
(R212, R211). -/
theorem hostStep_npix {a : HostAct} {s t : State} (h : hostStep a s = .next t) :
    (t.phase = s.phase ∧ t.npix = s.npix ∧ t.inLen = s.inLen) ∨ t.npix = 0 ∨ (t.phase = .idle ∧ t.CountFits) := by
  rcases hostStep_cases h with ⟨_, _, -, -, rfl⟩ | ⟨_, -, -, -, -, rfl⟩ | ⟨_, -, -, -, -, rfl⟩ | ⟨-, rfl⟩ | ⟨_, _, rfl⟩
  · exact .inl ⟨rfl, rfl, rfl⟩
  · exact .inl ⟨rfl, rfl, rfl⟩
  · exact .inr (.inl rfl)
  · exact .inr (.inr ⟨rfl, hardwareReset_npix_lt s⟩)
  · exact .inl ⟨rfl, rfl, rfl⟩

/-- A step that changes none of PHASE, NPIX and IN_LEN keeps the bound, or stays in IDLE with the same NPIX. -/
theorem State.Inv.npix_le_of_same {s t : State} (hi : s.Inv) (hp : t.phase = s.phase) (hn : t.npix = s.npix)
    (hl : t.inLen = s.inLen) : t.npix ≤ 62 * t.inLen ∨ (t.phase = .idle ∧ (t.npix = s.npix ∨ t.CountFits)) := by
  by_cases hidle : s.phase = .idle
  · exact .inr ⟨hp.trans hidle, .inl hn⟩
  · exact .inl (by rw [hn, hl]; exact hi.npix_le hidle)

/-- After every step NPIX is within the input, or PHASE is IDLE and NPIX is what it was or has its width. -/
theorem step_npix {s t : State} (hi : s.Inv) (h : step s = .next t) :
    t.npix ≤ 62 * t.inLen ∨ (t.phase = .idle ∧ (t.npix = s.npix ∨ t.CountFits)) := by
  cases hturn : engineTurn s with
  | true =>
    rw [step_engine hturn] at h
    by_cases hidle : s.phase = .idle
    · rw [engineStep_frozen (by simp [hidle, Phase.running])] at h
      cases h
      exact hi.npix_le_of_same rfl rfl rfl
    · exact .inl (engineStep_npix_le hi hidle h)
  | false =>
    cases hhost : s.host with
    | nil => simp [engineTurn_nil hhost] at hturn
    | cons a rest =>
      rw [step_host hhost hturn] at h
      rcases hostStep_npix h with ⟨hp, hn, hl⟩ | hzero | ⟨hidle, hfits⟩
      · exact hi.npix_le_of_same hp hn hl
      · exact .inl (by simp [hzero])
      · exact .inr ⟨hidle, .inr hfits⟩

/-- Settles O59: after a step NPIX is within the input, or PHASE is IDLE and NPIX is unchanged or drawn at its width. -/
theorem pixelCountFitsItsWidth : Obligations.PixelCountFitsItsWidth := by
  unfold Obligations.PixelCountFitsItsWidth
  refine ⟨Nat.two_pow_pos Config.npixBits, fun s t hi h => ?_⟩
  rcases step_npix hi h with hle | ⟨hidle, hkept⟩
  · exact ⟨fun _ => hle, fun _ hwide => Nat.lt_of_le_of_lt hle hwide⟩
  · refine ⟨fun hp => absurd hidle hp, fun hfits _ => ?_⟩
    rcases hkept with hsame | hnew
    · rw [State.CountFits, hsame]; exact hfits
    · exact hnew

end Sys2Proof.Machine
end

section
/-! What one step can do, in one named case each: the engine's moves (R23, R29, R156, R186) and the host's turn. -/

namespace Sys2Proof.Machine

/-- The length function of the decoder is the table of R86. -/
theorem chunkLength_eq_lengthByTable : ∀ b : Byte, chunkLength b = lengthByTable b.toNat := by decide

/-- Every chunk has at least one byte (R86). -/
theorem lengthByTable_pos (b : Nat) : 1 ≤ lengthByTable b := by
  unfold lengthByTable
  split_ifs <;> omega

/-- A chunk decoded at the cursor has the length of the byte that stands there (R23, R86). -/
theorem decodedChunk_length {s : State} {p : Place} {bs : List Byte} {i : Instr} (hf : fetchRecord p s = some bs)
    (hd : decodeChunk bs = .ok i) : i.length = lengthByTable (inByte s s.pc) := by
  obtain ⟨-, -, -, b0, rest, rfl, hlen⟩ := decodeChunk_ok hd
  obtain ⟨-, -, hbytes⟩ := fetchRecord_some hf
  have hread : Memory.read s.inMem s.pc = some b0 := by simpa using hbytes 0 (by simp)
  rw [hlen, chunkLength_eq_lengthByTable, inByte, hread]

/-- The engine's moves: from `s` the engine goes to one of these states and to no other. -/
inductive EngineMove (s : State) : State → Prop where
  /-- R29, R39: no run is under way. -/
  | frozen (hrun : s.phase.running = false) : EngineMove s s
  /-- R111: the header is parsed. -/
  | header (h : Header) (hp : s.phase = .header) (hfit : 14 ≤ s.inLen - s.pc) :
      EngineMove s { s with hdr := h, pc := 14, phase := .stream }
  /-- R142: the end marker ends the run. -/
  | endMark (hp : s.phase = .stream) (hfit : s.pc + 8 ≤ s.inLen) :
      EngineMove s { s with pc := s.pc + 8, phase := .done }
  /-- R156: a chunk of the leading byte's length replays a pixel `n` times. -/
  | chunk (p : Pixel) (n : Nat) (hp : s.phase = .stream) (hfit : s.pc + lengthByTable (inByte s s.pc) ≤ s.inLen)
      (hpos : 1 ≤ n) (hmax : n ≤ 62) : EngineMove s (replay p n (lengthByTable (inByte s s.pc)) s)
  /-- R186: error entry at the cursor. -/
  | raised (c : ErrorCause) (exp fnd : Nat) (hrun : s.phase.running = true) : EngineMove s (raiseError c s.pc exp fnd s)

/-- A stream step is one of the engine's moves (R141). -/
theorem streamStep_move {s t : State} (hp : s.phase = .stream) (h : engineStep s = .next t) : EngineMove s t := by
  have hrun : s.phase.running = true := by simp [hp, Phase.running]
  simp only [engineStep, hp] at h
  obtain ⟨bs, hf, ⟨i, hi, hx⟩ | ⟨e, -, rfl⟩⟩ := runRecord_next h
  · obtain ⟨hle, hwin, -⟩ := fetchRecord_some hf
    rcases decodeStream_ok hi with ⟨rfl, he⟩ | ⟨-, hc⟩
    · have := startsWithEndMarker_length he
      cases hx
      exact .endMark hp (by omega)
    · obtain ⟨hwf, hk, hl, -⟩ := decodeChunk_ok hc
      rw [decodedChunk_length hf hc] at hl
      rcases exec_chunk_cases hwf hk hx with ⟨p, n, hpos, hmax, rfl⟩ | ⟨_, -, -, rfl⟩
      · rw [decodedChunk_length hf hc]
        exact .chunk p n hp (by omega) hpos hmax
      · exact .raised _ _ _ hrun
  · obtain ⟨c, exp, fnd, he⟩ := raiseDecodeError_eq e s
    rw [he]
    exact .raised c exp fnd hrun

/-- Every engine step is one of the engine's moves. -/
theorem engineStep_move {s t : State} (h : engineStep s = .next t) : EngineMove s t := by
  cases hp : s.phase with
  | header =>
    rcases headerStep_cases hp h with ⟨w, ht, c, cs, hfit, rfl⟩ | ⟨c, exp, fnd, rfl⟩
    · exact .header _ hp hfit
    · exact .raised c exp fnd (by simp [hp, Phase.running])
  | stream => exact streamStep_move hp h
  | idle | done | error =>
    have hrun : s.phase.running = false := by simp [hp, Phase.running]
    rw [engineStep_frozen hrun] at h
    cases h
    exact .frozen hrun

/-- A step on the engine's turn is one of the engine's moves. -/
theorem step_move {s t : State} (hturn : engineTurn s = true) (h : step s = .next t) : EngineMove s t :=
  engineStep_move (step_engine hturn ▸ h)

/-- A step is a move of the engine on its turn, or else the action at the head of the host's queue. -/
theorem step_cases {s t : State} (h : step s = .next t) :
    (engineTurn s = true ∧ EngineMove s t) ∨
    (engineTurn s = false ∧ ∃ a rest, s.host = a :: rest ∧ hostStep a { s with host := rest } = .next t) := by
  cases hturn : engineTurn s with
  | true => exact .inl ⟨rfl, step_move hturn h⟩
  | false =>
    cases hhost : s.host with
    | nil => simp [engineTurn_nil hhost] at hturn
    | cons a rest => exact .inr ⟨rfl, a, rest, rfl, step_host hhost hturn ▸ h⟩

end Sys2Proof.Machine
end

section
/-! The run invariant (R22, R24, R25, R30, R164, R186): at reset, over the engine's moves, over the host's actions. -/

namespace Sys2Proof.Machine

/-- While a run is under way the cursor stands in the input (R22). -/
theorem State.Inv.pc_le_inLen {s : State} (hi : s.Inv) (hrun : s.phase.running = true) : s.pc ≤ s.inLen := by
  cases hp : s.phase with
  | header => simp [(hi.atHeader hp).1]
  | stream => exact (hi.inStream hp).2
  | idle | done | error => simp [hp, Phase.running] at hrun

/-- A move that touches no pixel keeps the invariant when the cursor does not go back and stands where the new phase wants it. -/
theorem State.Inv.of_move {s : State} (hi : s.Inv) (hrun : s.phase.running = true) {p : Phase} {c : Nat} {h : Header} {e : ErrorRecord}
    (hheader : p ≠ .header) (hc : s.pc ≤ c)
    (hstream : p = .stream → 14 ≤ c ∧ c ≤ s.inLen)
    (hdone : p = .done → 22 ≤ c ∧ c ≤ s.inLen ∧ s.npix ≤ 62 * (c - 22))
    (herror : p = .error → c = e.offset ∧ c ≤ s.inLen ∧ e.listed) :
    ({ s with hdr := h, err := e, pc := c, phase := p } : State).Inv := by
  have hne : s.phase ≠ .idle := fun hp => by simp [hp, Phase.running] at hrun
  obtain ⟨hlen, hcount⟩ := hi.counted hne
  have hbound : s.npix ≤ 62 * (c - 14) := by omega
  exact {
    memory := hi.memory
    sampled := fun _ => hi.sampled hrun
    present := fun _ => hi.present hne
    atHeader := fun hp => absurd hp hheader
    inStream := hstream
    atDone := hdone
    atError := herror
    counted := fun _ => ⟨hlen, hbound⟩
    slotHash := fun _ => hi.slotHash hne
    fresh := fun _ => hi.fresh hne
    last := fun _ => hi.last hne }

/-- Writing a pixel back into its own slot keeps every full slot under its hash (R25 (a)). -/
theorem slotHash_set {v : Vector Slot 64} (hv : ∀ (i : Fin 64) (q : Pixel), v[i] = .full q → pixelHash q = i) (p : Pixel)
    (i : Fin 64) (q : Pixel) (hq : (v.set (pixelHash p) (.full p))[i] = .full q) : pixelHash q = i := by
  by_cases hip : i = pixelHash p
  · subst hip
    rw [cache_set_same] at hq
    cases hq
    rfl
  · exact hv i q (cache_set_other v p hip ▸ hq)

/-- A replayed chunk of at least one byte and 1 to 62 pixels keeps the invariant. -/
theorem State.Inv.of_replay {s : State} (hi : s.Inv) (hp : s.phase = .stream) {p : Pixel} {n len : Nat} (hlen : 1 ≤ len)
    (hfit : s.pc + len ≤ s.inLen) (hpos : 1 ≤ n) (hmax : n ≤ 62) : (replay p n len s).Inv := by
  have hne : s.phase ≠ .idle := by simp [hp]
  obtain ⟨hcount, hbound⟩ := hi.counted hne
  obtain ⟨hstart, -⟩ := hi.inStream hp
  have hlast : (replay p n len s).out.getLast? = some p := by
    rw [replay_out, List.getLast?_append, List.getLast?_replicate, if_neg (by omega), Option.some_or]
  exact {
    memory := hi.memory
    sampled := hi.sampled
    present := hi.present
    atHeader := fun h => by simp [hp] at h
    inStream := fun _ => ⟨by rw [replay_pc]; omega, hfit⟩
    atDone := fun h => by simp [hp] at h
    atError := fun h => by simp [hp] at h
    counted := fun _ => ⟨by simp [hcount], by rw [replay_npix, replay_pc]; omega⟩
    slotHash := fun _ => slotHash_set (hi.slotHash hne) p
    fresh := fun _ hout => by rw [hout] at hlast; cases hlast
    last := fun _ _ => ⟨hlast, cache_set_same s.cache p⟩ }

/-- Every engine move keeps the invariant. -/
theorem EngineMove.inv {s t : State} (hm : EngineMove s t) (hi : s.Inv) : t.Inv := by
  cases hm with
  | frozen => exact hi
  | header h hp hfit =>
    have hpc := (hi.atHeader hp).1
    exact hi.of_move (by simp [hp, Phase.running]) nofun (by omega) (fun _ => ⟨le_rfl, by omega⟩) nofun nofun
  | endMark hp hfit =>
    have hstart := (hi.inStream hp).1
    have hbound := (hi.counted (by simp [hp])).2
    exact hi.of_move (by simp [hp, Phase.running]) nofun (by omega) nofun (fun _ => ⟨by omega, hfit, by omega⟩) nofun
  | chunk p n hp hfit hpos hmax => exact hi.of_replay hp (lengthByTable_pos _) hfit hpos hmax
  | raised c exp fnd hrun =>
    exact hi.of_move hrun nofun le_rfl nofun nofun fun _ => ⟨rfl, hi.pc_le_inLen hrun, c, rfl, rfl⟩

/-- The invariant says nothing of the host's queue, of what was read, nor of the draws. -/
theorem State.Inv.of_hostFields {s : State} (hi : s.Inv) (q : List HostAct) (d : HostDatum) (n : Nat) :
    ({ s with host := q, hostData := d, draws := n } : State).Inv := { hi with }

/-- Placing a byte of IN keeps the invariant: the canonical form stays and no byte goes away. -/
theorem State.Inv.of_writeIn {s : State} (hi : s.Inv) (a : Nat) (b : Byte) :
    ({ s with inMem := Memory.write s.inMem a b } : State).Inv :=
  { hi with
    memory := Memory.wf_write a b hi.memory
    present := fun hne => Memory.present_write a b (hi.present hne) }

/-- Between runs the register IN_LEN is not bound to the IN_LEN of the run. -/
theorem State.Inv.of_writeInLen {s : State} (hi : s.Inv) (hrun : s.phase.running = false) (v : Nat) :
    ({ s with inLenReg := v } : State).Inv :=
  { hi with sampled := fun h => by simp [hrun] at h }

/-- START establishes the invariant when the bytes IN_LEN promises are there (R37, R212). -/
theorem State.Inv.of_startRun {s : State} (hi : s.Inv) (hpresent : Memory.present s.inMem s.inLenReg = true) :
    (startRun s).Inv where
  memory := hi.memory
  sampled _ := rfl
  present _ := hpresent
  atHeader _ := ⟨rfl, rfl⟩
  inStream := nofun
  atDone := nofun
  atError := nofun
  counted _ := ⟨rfl, Nat.zero_le _⟩
  slotHash _ i p h := by
    rw [startRun_cache, emptyCache_get] at h
    cases h
  fresh _ _ := ⟨rfl, rfl⟩
  last _ hout := absurd rfl hout

/-- In IDLE, outside every run, the invariant asks for the canonical form of IN alone. -/
theorem State.Inv.of_idle {s : State} (hp : s.phase = .idle) (hm : Memory.wf s.inMem = true) : s.Inv := by
  constructor <;> simp [hp, hm, Phase.running]

/-- Every host action that is not refused keeps the invariant. -/
theorem hostStep_inv {a : HostAct} {s t : State} (hi : s.Inv) (h : hostStep a s = .next t) : t.Inv := by
  rcases hostStep_cases h with ⟨o, b, -, -, rfl⟩ | ⟨v, -, hrun, -, -, rfl⟩ | ⟨_, -, -, -, hpresent, rfl⟩ | ⟨-, rfl⟩ | ⟨d, n, rfl⟩
  · exact hi.of_writeIn o b
  · exact hi.of_writeInLen hrun v
  · exact hi.of_startRun hpresent
  · exact .of_idle rfl hi.memory
  · exact hi.of_hostFields s.host d n

/-- Settles O39: each move of the engine and each action of the host keeps the invariant. -/
theorem runInvariantIsKept : Obligations.RunInvariantIsKept := by
  unfold Obligations.RunInvariantIsKept
  intro s t hi h
  rcases step_cases h with ⟨-, hm⟩ | ⟨-, a, rest, -, hs⟩
  · exact hm.inv hi
  · exact hostStep_inv (hi.of_hostFields rest s.hostData s.draws) hs

/-- Settles O40: after reset PHASE is IDLE and IN is empty. -/
theorem runInvariantAtReset : Obligations.RunInvariantAtReset := .of_idle rfl rfl

end Sys2Proof.Machine
end

section
/-! What the engine's moves do to the cursor, the cache and OUT (R23, R24, R25, R30). -/

namespace Sys2Proof.Machine

/-- Settles O29: each move of the engine, with the bytes it consumed. -/
theorem cursorAdvancesByRecordLength : Obligations.CursorAdvancesByRecordLength := by
  unfold Obligations.CursorAdvancesByRecordLength
  intro s t hturn h
  cases step_move hturn h with
  | frozen hrun =>
    have hstream : s.phase ≠ .stream := fun hp => by simp [hp, Phase.running] at hrun
    simp [hstream]
  | header h hp hfit => simp [hp]
  | endMark hp hfit => simp [hp, hfit]
  | chunk p n hp hfit => simp [hp, hfit]
  | raised c exp fnd hrun => simp

/-- A move leaves the cache, or writes one pixel into the slot of its hash (R163). -/
theorem EngineMove.cache {s t : State} (hm : EngineMove s t) :
    t.cache = s.cache ∨ ∃ p : Pixel, t.cache = s.cache.set (pixelHash p) (.full p) := by
  cases hm with
  | chunk p => exact .inr ⟨p, rfl⟩
  | frozen | header | endMark | raised => exact .inl rfl

/-- A write-back clears no valid bit (R24). -/
theorem valid_set {v : Vector Slot 64} (p : Pixel) {j : Fin 64} (hj : v[j].valid = true) :
    (v.set (pixelHash p) (.full p))[j].valid = true := by
  by_cases h : j = pixelHash p
  · rw [h, cache_set_same]
    rfl
  · rw [cache_set_other v p h, hj]

/-- Settles O31: the engine writes no slot but by a write-back, which fills it. -/
theorem validBitsAreNeverCleared : Obligations.ValidBitsAreNeverCleared := by
  unfold Obligations.ValidBitsAreNeverCleared
  intro s t hturn h j hj
  rcases (step_move hturn h).cache with heq | ⟨p, heq⟩
  · rw [heq, hj]
  · rw [heq, valid_set p hj]

/-- A write-back adds one full slot where the slot was empty and none where it was full (R25 (c)). -/
theorem fullSlots_set (v : Vector Slot 64) (p : Pixel) :
    fullSlots (v.set (pixelHash p) (.full p)) = fullSlots v + if v[pixelHash p].valid then 0 else 1 := by
  have hset : fullSlots (v.set (pixelHash p) (.full p)) = fullSlots v - (if v[pixelHash p].valid then 1 else 0) + 1 := by
    have hfull : (Slot.full p).valid = true := rfl
    simp [fullSlots, Vector.toList_set, List.countP_set, hfull]
  have hpos (hfull : v[pixelHash p].valid = true) : 0 < fullSlots v :=
    List.countP_pos_iff.2 ⟨_, by simp, hfull⟩
  rw [hset]
  split_ifs with hfull
  · have := hpos hfull
    omega
  · omega

/-- Settles O32: the engine changes the cache by at most one write-back. -/
theorem fullSlotsGrowByAtMostOne : Obligations.FullSlotsGrowByAtMostOne := by
  unfold Obligations.FullSlotsGrowByAtMostOne
  intro s t hturn h
  rcases (step_move hturn h).cache with heq | ⟨p, heq⟩
  · rw [heq]
    omega
  · rw [heq, fullSlots_set]
    split_ifs <;> omega

/-- Settles O33: a chunk appends its copies and counts them; every other move emits nothing. -/
theorem outputIsAppendOnly : Obligations.OutputIsAppendOnly := by
  unfold Obligations.OutputIsAppendOnly
  intro s t hturn h
  cases step_move hturn h with
  | chunk p n hp hfit hpos hmax => exact ⟨List.replicate n p, rfl, by simp, by simpa using hmax⟩
  | frozen | header | endMark | raised => exact ⟨[], by simp⟩

end Sys2Proof.Machine
end

section
/-! PHASE over every step (R29), what stands still between runs (R39), and the widths of the cursor and the lengths (R36). -/

namespace Sys2Proof.Machine

/-- Settles O38: the engine's moves and the host's START and reset, each with the phases it goes between. -/
theorem phaseTransitionsAreExactly : Obligations.PhaseTransitionsAreExactly := by
  unfold Obligations.PhaseTransitionsAreExactly
  refine ⟨⟨rfl, rfl, rfl, rfl, rfl⟩, fun s t h => ?_⟩
  rcases step_cases h with ⟨hturn, hm⟩ | ⟨hturn, a, rest, hhost, hs⟩
  · cases hm with
    | frozen hrun => exact .inl ⟨rfl, fun hp => by simp [hp, Phase.running] at hrun⟩
    | header _ hp => exact .inr (.inr (.inl ⟨hturn, hp, .inl rfl⟩))
    | endMark hp => exact .inr (.inr (.inr (.inl ⟨hturn, hp, .inl rfl⟩)))
    | chunk _ _ hp => exact .inl ⟨rfl, by simp [hp]⟩
    | raised _ _ _ hrun =>
      cases hp : s.phase with
      | header => exact .inr (.inr (.inl ⟨hturn, rfl, .inr rfl⟩))
      | stream => exact .inr (.inr (.inr (.inl ⟨hturn, rfl, .inr rfl⟩)))
      | idle | done | error => simp [hp, Phase.running] at hrun
  · rcases hostStep_cases hs with ⟨_, _, -, -, rfl⟩ | ⟨_, -, -, -, -, rfl⟩ | ⟨v, rfl, hodd, hrun, -, rfl⟩ | ⟨rfl, rfl⟩ | ⟨_, _, rfl⟩
    · exact .inr (.inl ⟨rfl, hturn⟩)
    · exact .inr (.inl ⟨rfl, hturn⟩)
    · exact .inr (.inr (.inr (.inr (.inl ⟨hrun, rfl, v, rest, hhost, hodd⟩))))
    · exact .inr (.inr (.inr (.inr (.inr ⟨rfl, rest, hhost⟩))))
    · exact .inr (.inl ⟨rfl, hturn⟩)

/-- Settles O51: between runs the engine is frozen, and only START and reset among the host's actions touch it. -/
theorem stateIsFrozenBetweenRuns : Obligations.StateIsFrozenBetweenRuns := by
  unfold Obligations.StateIsFrozenBetweenRuns
  intro s t hrun h hnoStart hnoReset
  cases hturn : engineTurn s with
  | true =>
    rw [step_engine hturn, engineStep_frozen hrun] at h
    cases h
    simp
  | false =>
    rcases step_cases h with ⟨htrue, -⟩ | ⟨-, a, rest, hhost, hs⟩
    · simp [htrue] at hturn
    · rcases hostStep_cases hs with ⟨_, _, -, -, rfl⟩ | ⟨_, -, -, -, -, rfl⟩ | ⟨v, rfl, hodd, -⟩ | ⟨rfl, -⟩ | ⟨_, _, rfl⟩
      · simp
      · simp
      · have := hnoStart v rest hhost
        omega
      · exact absurd hhost (hnoReset rest)
      · simp

/-- Every engine move leaves the cursor inside the input, so its width is IN_LEN's (R22, R36). -/
theorem EngineMove.fits {s t : State} (hm : EngineMove s t) (hf : s.Fits) : t.Fits := by
  obtain ⟨hreg, hlen, hpc, hoff⟩ := hf
  cases hm with
  | frozen => exact ⟨hreg, hlen, hpc, hoff⟩
  | header _ _ hfit => exact ⟨hreg, hlen, Nat.lt_of_le_of_lt (show 14 ≤ s.inLen by omega) hlen, hoff⟩
  | endMark _ hfit => exact ⟨hreg, hlen, Nat.lt_of_le_of_lt hfit hlen, hoff⟩
  | chunk _ _ _ hfit => exact ⟨hreg, hlen, Nat.lt_of_le_of_lt hfit hlen, hoff⟩
  | raised => exact ⟨hreg, hlen, hpc, hpc⟩

/-- Every host action that is not refused leaves the widths as they are, or writes values of that width. -/
theorem hostStep_fits {a : HostAct} {s t : State} (hf : s.Fits) (h : hostStep a s = .next t) : t.Fits := by
  obtain ⟨hreg, hlen, hpc, hoff⟩ := hf
  rcases hostStep_cases h with ⟨_, _, -, -, rfl⟩ | ⟨_, -, -, -, hv, rfl⟩ | ⟨_, -, -, -, -, rfl⟩ | ⟨-, rfl⟩ | ⟨_, _, rfl⟩
  · exact ⟨hreg, hlen, hpc, hoff⟩
  · exact ⟨hv, hlen, hpc, hoff⟩
  · exact ⟨hreg, hreg, Nat.two_pow_pos _, startRun_errOffset_lt s⟩
  · exact ⟨freeOffset_lt _ _, freeOffset_lt _ _, freeOffset_lt _ _, freeOffset_lt _ _⟩
  · exact ⟨hreg, hlen, hpc, hoff⟩

/-- Settles O58: the cursor never passes IN_LEN, and every other value written has its width. -/
theorem cursorAndLengthFitTheirWidth : Obligations.CursorAndLengthFitTheirWidth := by
  unfold Obligations.CursorAndLengthFitTheirWidth
  have hzero := Nat.two_pow_pos Config.pcBits
  refine ⟨⟨hzero, hzero, hzero, hzero⟩, fun s t _ hf h => ?_⟩
  rcases step_cases h with ⟨-, hm⟩ | ⟨-, a, rest, -, hs⟩
  · exact hm.fits hf
  · have hpopped : ({ s with host := rest } : State).Fits := { hf with }
    exact hostStep_fits hpopped hs

end Sys2Proof.Machine
end

section
/-! The host's actions at the head of its queue: reset, START, register and memory accesses (R35, R36, R211, R212, R215). -/

namespace Sys2Proof.Machine

section HostActs
variable {s : State} {a : HostAct} {rest : List HostAct} {n : Nat} {r : HostReg}

/-- Every action but a wait goes before the engine's next step (log entry 3). -/
theorem step_hostAct (hhost : s.host = a :: rest) (hend : a ≠ .waitEnd) (hcursor : ∀ k, a ≠ .waitCursor k) :
    step s = hostStep a { s with host := rest } := by
  have hturn : engineTurn s = false := by
    cases a with
    | waitEnd => exact absurd rfl hend
    | waitCursor k => exact absurd rfl (hcursor k)
    | _ => simp [engineTurn, hhost]
  exact step_host hhost hturn

/-- A read at the head of the queue, in the register's valid phases, delivers the register (R36). -/
theorem step_readReg_valid (hhost : s.host = .readReg n :: rest) (hr : HostReg.ofNumber n = some r)
    (hv : r.validIn s.phase = true) : step s = .next { s with host := rest, hostData := .value (r.read s) } := by
  rw [step_hostAct hhost nofun nofun]
  simp only [hostStep, hostReadReg, hr, hv, if_true]
  cases r <;> rfl

/-- Outside the valid phases it delivers a free value of the register's width (log entry 10). -/
theorem step_readReg_invalid (hhost : s.host = .readReg n :: rest) (hr : HostReg.ofNumber n = some r)
    (hv : r.validIn s.phase = false) : step s = .next
      { s with host := rest, hostData := .value (Config.freeNat s.draws 14 % 2 ^ r.bits), draws := s.draws + 1 } := by
  rw [step_hostAct hhost nofun nofun]
  simp [hostStep, hostReadReg, hr, hv]

/-- START between runs begins the run when the bytes IN_LEN promises are present (R212, P3). -/
theorem hostWriteCtrl_start (hrun : s.phase.running = false) (hpresent : Memory.present s.inMem s.inLenReg = true) :
    hostWriteCtrl 1 s = .next (startRun s) := by
  simp [hostWriteCtrl, hrun, hpresent]

end HostActs

/-- Settles O46: reset writes PHASE, CTRL reads 0 in IDLE, and the engine is frozen there. -/
theorem hardwareResetLeavesIdle : Obligations.HardwareResetLeavesIdle := by
  unfold Obligations.HardwareResetLeavesIdle
  refine ⟨rfl, fun s rest hhost => ?_, fun s rest hp hhost => ?_, fun s hp hhost => ?_⟩
  · have hstep := step_hostAct hhost nofun nofun
    exact ⟨_, hstep, rfl, rfl, fun _ => rfl⟩
  · exact step_readReg_valid hhost (r := .ctrl) rfl (by simp [hp, HostReg.validIn, Phase.running])
  · rw [step_engine (engineTurn_nil hhost), engineStep_frozen (by simp [hp, Phase.running])]

/-- Settles O47: START is `startRun` of the state. -/
theorem startEstablishesInitialState : Obligations.StartEstablishesInitialState := by
  unfold Obligations.StartEstablishesInitialState
  intro s rest hrun hhost hthere
  have hstep : step s = .next (startRun { s with host := rest }) := by
    rw [step_hostAct hhost nofun nofun]
    exact hostWriteCtrl_start hrun ((Memory.present_iff _ _).2 hthere)
  exact ⟨_, hstep, rfl, rfl, rfl, rfl, emptyCache_get, rfl, rfl, rfl, rfl, rfl, rfl, fun _ => rfl, rfl⟩

/-- Settles O49: each row of R36 is a register in a valid phase. -/
theorem registerReadsReturnRegisters : Obligations.RegisterReadsReturnRegisters := by
  unfold Obligations.RegisterReadsReturnRegisters
  intro s rest n v hhost hrow
  have hreg : ∃ r, HostReg.ofNumber n = some r ∧ r.validIn s.phase = true ∧ v = r.read s := by
    rcases hrow with ⟨rfl, hp, rfl⟩ | ⟨rfl, rfl⟩ | ⟨rfl, rfl⟩ | ⟨rfl, hp, rfl⟩ | ⟨rfl, hp, rfl⟩ | ⟨rfl, hp, rfl⟩ |
      ⟨rfl, hp, rfl⟩ | ⟨rfl, hp, rfl⟩ | ⟨rfl, hp, rfl⟩ | ⟨rfl, hp, rfl⟩ | ⟨rfl, hp, rfl⟩ | ⟨rfl, hp, rfl⟩ |
      ⟨rfl, hp, rfl⟩ | ⟨rfl, hp, rfl⟩
    · exact ⟨.ctrl, rfl, by simp [HostReg.validIn, hp], rfl⟩
    · exact ⟨.phase, rfl, rfl, rfl⟩
    · exact ⟨.inLen, rfl, rfl, rfl⟩
    · exact ⟨.pc, rfl, by rcases hp with hp | hp <;> simp [HostReg.validIn, Phase.ended, hp], rfl⟩
    · exact ⟨.npix, rfl, by simp [HostReg.validIn, hp], rfl⟩
    · exact ⟨.hdrWidth, rfl, by simp [HostReg.validIn, hp], rfl⟩
    · exact ⟨.hdrHeight, rfl, by simp [HostReg.validIn, hp], rfl⟩
    · exact ⟨.hdrChannels, rfl, by simp [HostReg.validIn, hp], rfl⟩
    · exact ⟨.hdrColorspace, rfl, by simp [HostReg.validIn, hp], rfl⟩
    · exact ⟨.errKind, rfl, by simp [HostReg.validIn, hp], rfl⟩
    · exact ⟨.errCause, rfl, by simp [HostReg.validIn, hp], rfl⟩
    · exact ⟨.errOffset, rfl, by simp [HostReg.validIn, hp], rfl⟩
    · exact ⟨.errExpected, rfl, by simp [HostReg.validIn, hp], rfl⟩
    · exact ⟨.errFound, rfl, by simp [HostReg.validIn, hp], rfl⟩
  obtain ⟨r, hr, hv, rfl⟩ := hreg
  exact step_readReg_valid hhost hr hv

/-- Settles O60: a free value is taken modulo the register's width. -/
theorem invalidReadsDeliverAnyValue : Obligations.InvalidReadsDeliverAnyValue := by
  unfold Obligations.InvalidReadsDeliverAnyValue
  intro s rest n r hr hv hhost
  exact ⟨_, Nat.mod_lt _ (Nat.two_pow_pos _), step_readReg_invalid hhost hr hv⟩

/-- Settles O50: in DONE a read of OUT finds every pixel below its length. -/
theorem hostCollectsPixels : Obligations.HostCollectsPixels := by
  unfold Obligations.HostCollectsPixels
  intro s rest k p hp hhost hk
  rw [step_hostAct hhost nofun nofun]
  simp [hostStep, hostReadOut, hp, hk]

/-- Settles O56: a write of IN_LEN passes the three tests of R218. -/
theorem hostWritesInLen : Obligations.HostWritesInLen := by
  unfold Obligations.HostWritesInLen
  intro s rest v hrun hhost hthere hwidth
  have hpresent := (Memory.present_iff _ _).2 hthere
  rw [step_hostAct hhost nofun nofun]
  simp [hostStep, hostWriteReg, HostReg.ofNumber, hostWriteInLen, hrun, hpresent, hwidth]

/-- Settles O57: the three answers of a read of IN, by the phase and by the byte's presence. -/
theorem hostReadsInput : Obligations.HostReadsInput := by
  unfold Obligations.HostReadsInput
  intro s rest a hhost
  rw [step_hostAct hhost nofun nofun]
  refine ⟨fun b hrun hread => ?_, fun hrun hread => ?_, fun hrun => ?_⟩
  · simp [hostStep, hostReadIn, hrun, hread]
  · simp [hostStep, hostReadIn, hrun, hread]
  · simp [hostStep, hostReadIn, hrun]

end Sys2Proof.Machine
end

section
/-! The input and the output in memory (R51, R55, R65): the engine only reads IN, a run reads nothing of IN at or past the cursor it
ends with, and OUT has four bytes a pixel. -/

namespace Sys2Proof.Machine

/-- No move of the engine writes IN, a length, or a field of the host's (R65). -/
theorem EngineMove.sameSurroundings {s t : State} (hm : EngineMove s t) : SameSurroundings s t := by
  cases hm with
  | frozen | header | endMark | chunk | raised => exact ⟨fun _ => rfl, rfl, rfl, rfl, rfl, rfl⟩

/-- Settles O34: each step on the engine's turn is one of its moves. -/
theorem engineNeverWritesInput : Obligations.EngineNeverWritesInput := by
  unfold Obligations.EngineNeverWritesInput
  intro s t hturn h
  exact (step_move hturn h).sameSurroundings

/-! ### Bytes past the end of a run (R51) -/

/-- The state over another input of `n` bytes. -/
def State.withInput (s : State) (m : Memory) (n : Nat) : State := { s with inMem := m, inLen := n, inLenReg := n }

@[simp] theorem State.withInput_phase (s : State) (m : Memory) (n : Nat) : (s.withInput m n).phase = s.phase := rfl

/-- The least cursor at which a run now in `s` can still end in DONE: the header and the marker, or the marker, lie ahead. -/
def State.leastEnd (s : State) : Nat :=
  match s.phase with
  | .header => s.pc + 22
  | .stream => s.pc + 8
  | .idle | .done | .error => s.pc

/-- Reads that agree on a range of offsets read the same bytes there. -/
theorem Memory.readBytes_congr {m m' : Memory} {a n : Nat} (h : ∀ k < n, Memory.read m (a + k) = Memory.read m' (a + k)) :
    Memory.readBytes m a n = Memory.readBytes m' a n := by
  ext1 bs
  rw [Memory.readBytes_spec, Memory.readBytes_spec]
  exact and_congr_right fun _ => forall₂_congr fun k hk => by rw [h k hk]

/-- Where the input covers the whole window, the fetch reads the window (R52). -/
theorem fetchRecord_of_window {p : Place} {s : State} (h : s.pc + Place.window p ≤ s.inLen) :
    fetchRecord p s = Memory.readBytes s.inMem s.pc (Place.window p) := by
  rw [fetchRecord, if_pos (by omega), Nat.min_eq_left (by omega)]

/-- No move but error entry brings the least end back. -/
theorem EngineMove.leastEnd_le {s t : State} (hm : EngineMove s t) (hi : s.Inv) (ht : t.phase ≠ .error) :
    s.leastEnd ≤ t.leastEnd := by
  cases hm with
  | frozen => exact le_rfl
  | header h hp => simp [State.leastEnd, hp, (hi.atHeader hp).1]
  | endMark hp => simp [State.leastEnd, hp]
  | chunk p n hp => simp [State.leastEnd, hp]
  | raised => exact absurd rfl ht

/-- A run that ends in DONE ends at or past the least end of each state on its way, and inside the input. -/
theorem leastEnd_le_of_done {k : Nat} {s t : State} (hi : s.Inv) (hhost : s.host = []) (h : runSteps k s = .next t)
    (hdone : t.phase = .done) : s.leastEnd ≤ t.pc ∧ t.pc ≤ s.inLen := by
  induction k generalizing s with
  | zero =>
    cases h
    obtain ⟨-, hpc, -⟩ := hi.atDone hdone
    exact ⟨by simp [State.leastEnd, hdone], hpc⟩
  | succ k ih =>
    obtain ⟨u, hstep, hrest⟩ := runSteps_succ_next h
    have hm := step_move (engineTurn_nil hhost) hstep
    have hsame := hm.sameSurroundings
    have hu : u.host = [] := hsame.host.trans hhost
    have hne : u.phase ≠ .error := fun he => by
      rw [runSteps_frozen k hu (by simp [he, Phase.running])] at hrest
      cases hrest
      simp [he] at hdone
    obtain ⟨hend, hlen⟩ := ih (hm.inv hi) hu hrest
    exact ⟨(hm.leastEnd_le hi hne).trans hend, hsame.len ▸ hlen⟩

section WithInput
variable {s t : State} {m : Memory} {n c : Nat}

/-- A record's effect is the same over another input: exec reads none of it. -/
theorem exec_withInput {i : Instr} (h : exec i s = .next t) : exec i (s.withInput m n) = .next (t.withInput m n) := by
  cases i with
  | index j =>
    cases hj : s.cache[j] with
    | empty =>
      rw [exec_index_empty hj] at h
      cases h
      exact exec_index_empty (s := s.withInput m n) hj
    | full q =>
      rw [exec_index_full hj] at h
      cases h
      exact exec_index_full (s := s.withInput m n) hj
  | hdr | endMark | rgb | rgba | diff | luma | run =>
    cases h
    rfl

/-- Error entry reads nothing of the input. -/
theorem raiseDecodeError_withInput (e : DecodeError) (s : State) (m : Memory) (n : Nat) :
    raiseDecodeError e (s.withInput m n) = (raiseDecodeError e s).withInput m n := by
  cases e <;> rfl

/-- Where the whole window lies below `c`, inputs that both reach `c` and agree below it give the decoder the same bytes. -/
theorem fetchRecord_withInput {p : Place} (hwin : s.pc + Place.window p ≤ c) (hlen : c ≤ s.inLen) (hn : c ≤ n)
    (hagree : ∀ a < c, Memory.read m a = Memory.read s.inMem a) : fetchRecord p (s.withInput m n) = fetchRecord p s := by
  have hnew : (s.withInput m n).pc + Place.window p ≤ (s.withInput m n).inLen := hwin.trans hn
  rw [fetchRecord_of_window hnew, fetchRecord_of_window (hwin.trans hlen)]
  exact Memory.readBytes_congr fun k hk => hagree (s.pc + k) (by omega)

/-- With the same bytes fetched the same record runs. -/
theorem runRecord_withInput {p : Place} (hf : fetchRecord p (s.withInput m n) = fetchRecord p s)
    (h : runRecord p s = .next t) : runRecord p (s.withInput m n) = .next (t.withInput m n) := by
  obtain ⟨bs, hb, ⟨i, hi, hx⟩ | ⟨e, he, rfl⟩⟩ := runRecord_next h
  · simp only [runRecord, hf, hb, hi, exec_withInput hx]
  · simp only [runRecord, hf, hb, he, raiseDecodeError_withInput]

/-- An engine step is the same over every input that agrees up to an end the run can reach. -/
theorem engineStep_withInput (hend : s.leastEnd ≤ c) (hlen : c ≤ s.inLen) (hn : c ≤ n)
    (hagree : ∀ a < c, Memory.read m a = Memory.read s.inMem a) (h : engineStep s = .next t) :
    engineStep (s.withInput m n) = .next (t.withInput m n) := by
  cases hp : s.phase with
  | header =>
    simp only [State.leastEnd, hp] at hend
    have hwin : s.pc + Place.window .header ≤ c := by simp only [Place.window]; omega
    simp only [engineStep, State.withInput_phase, hp] at h ⊢
    exact runRecord_withInput (fetchRecord_withInput hwin hlen hn hagree) h
  | stream =>
    simp only [State.leastEnd, hp] at hend
    simp only [engineStep, State.withInput_phase, hp] at h ⊢
    exact runRecord_withInput (fetchRecord_withInput hend hlen hn hagree) h
  | idle | done | error =>
    have hrun : s.phase.running = false := by simp [hp, Phase.running]
    rw [engineStep_frozen hrun] at h
    cases h
    exact engineStep_frozen hrun

end WithInput

/-- A run to DONE is the same over every input that agrees below its final cursor. -/
theorem runSteps_withInput {k : Nat} {s t : State} {m : Memory} {n : Nat} (hi : s.Inv) (hhost : s.host = [])
    (h : runSteps k s = .next t) (hdone : t.phase = .done) (hn : t.pc ≤ n)
    (hagree : ∀ a < t.pc, Memory.read m a = Memory.read s.inMem a) :
    runSteps k (s.withInput m n) = .next (t.withInput m n) := by
  induction k generalizing s with
  | zero =>
    cases h
    rfl
  | succ k ih =>
    obtain ⟨hend, hlen⟩ := leastEnd_le_of_done hi hhost h hdone
    obtain ⟨u, hstep, hrest⟩ := runSteps_succ_next h
    have hturn := engineTurn_nil hhost
    have hm := step_move hturn hstep
    have hsame := hm.sameSurroundings
    have hstep' : step (s.withInput m n) = .next (u.withInput m n) := by
      rw [step_engine (engineTurn_nil (s := s.withInput m n) hhost)]
      exact engineStep_withInput hend hlen hn hagree (step_engine hturn ▸ hstep)
    rw [runSteps_succ k hstep']
    exact ih (hm.inv hi) (hsame.host.trans hhost) hrest fun a ha => (hagree a ha).trans (hsame.input a).symm

/-- Settles O43: no window of the run reaches past its final cursor, for the header leaves at least the marker's 8 bytes ahead and
every chunk does too. -/
theorem bytesPastEndHaveNoEffect : Obligations.BytesPastEndHaveNoEffect := by
  unfold Obligations.BytesPastEndHaveNoEffect
  intro k s t m n hi hhost _ h hdone hn hagree
  exact runSteps_withInput hi hhost h hdone hn hagree

/-! ### OUT as bytes (R55) -/

/-- Byte `j` of pixel `k` stands at `4k + j`. -/
theorem outBytes_getElem? (out : List Pixel) (k j : Nat) (hj : j < 4) :
    (outBytes out)[4 * k + j]? = out[k]?.bind fun p => p.bytes[j]? := by
  induction out generalizing k with
  | nil => simp [outBytes]
  | cons p out ih =>
    have hcons : outBytes (p :: out) = p.bytes ++ outBytes out := rfl
    have hlen : p.bytes.length = 4 := rfl
    cases k with
    | zero => simp [hcons, List.getElem?_append_left (hlen.symm ▸ hj)]
    | succ k =>
      have hoff : 4 * (k + 1) + j - p.bytes.length = 4 * k + j := by omega
      rw [hcons, List.getElem?_append_right (by omega), hoff, ih, List.getElem?_cons_succ]

/-- Settles O55: the four bytes of pixel `k`, one by one. -/
theorem outputByteLayout : Obligations.OutputByteLayout := by
  unfold Obligations.OutputByteLayout
  intro out k p hk
  have hbyte (j : Nat) (hj : j < 4) : (outBytes out)[4 * k + j]? = p.bytes[j]? := by
    rw [outBytes_getElem? out k j hj, hk, Option.bind_some]
  exact ⟨hbyte 0 (by omega), hbyte 1 (by omega), hbyte 2 (by omega), hbyte 3 (by omega)⟩

end Sys2Proof.Machine
end

section
/-! The decoder's answer for each leading byte (R90, R92, R93, R122 to R128), and what decode and encode are to each other (R99). -/

namespace Sys2Proof

/-! ### The dispatch table (R90) -/

/-- Settles O2: the leading byte has only 256 values. -/
theorem dispatchFollowsLeadingByte : Obligations.DispatchFollowsLeadingByte := by
  unfold Obligations.DispatchFollowsLeadingByte
  decide

section Dispatch
variable {b : Byte}

theorem variantOf_index (h : b.toNat < 0x40) : variantOf b = .index := by
  rw [dispatchFollowsLeadingByte b, if_pos (by omega)]

theorem variantOf_diff (hlo : 0x40 ≤ b.toNat) (hhi : b.toNat < 0x80) : variantOf b = .diff := by
  rw [dispatchFollowsLeadingByte b, if_neg (by omega), if_pos (by omega)]

theorem variantOf_luma (hlo : 0x80 ≤ b.toNat) (hhi : b.toNat < 0xC0) : variantOf b = .luma := by
  rw [dispatchFollowsLeadingByte b, if_neg (by omega), if_neg (by omega), if_pos (by omega)]

theorem variantOf_run (hlo : 0xC0 ≤ b.toNat) (hhi : b.toNat < 0xFE) : variantOf b = .run := by
  rw [dispatchFollowsLeadingByte b, if_neg (by omega), if_neg (by omega), if_neg (by omega), if_pos (by omega)]

/-- The one byte past FE leads RGBA. -/
theorem eq_rgbaByte (hlo : 0xFE ≤ b.toNat) (hne : b.toNat ≠ 0xFE) : b = 0xFF := by
  have hb := b.isLt
  exact BitVec.eq_of_toNat_eq (show b.toNat = 0xFF by omega)

end Dispatch

/-! ### The chunk decoder, one equation per row -/

section ChunkRows
variable {b0 : Byte}

theorem decodeChunk_of_fields {rest : List Byte} {i : Instr} (h : chunkFields (b0 :: rest) = some i) :
    decodeChunk (b0 :: rest) = .ok i := by
  simp only [decodeChunk, h]

theorem decodeChunk_index (h : b0.toNat < 0x40) (rest : List Byte) :
    decodeChunk (b0 :: rest) = .ok (.index ⟨b0.toNat, h⟩) := by
  apply decodeChunk_of_fields
  have hraw : bits b0 5 0 = b0.toNat := by unfold bits; omega
  simp [chunkFields, variantOf_index h, hraw]

theorem decodeChunk_diff (hlo : 0x40 ≤ b0.toNat) (hhi : b0.toNat < 0x80) (rest : List Byte) :
    decodeChunk (b0 :: rest) = .ok
      (.diff ((b0.toNat / 16 % 4 : Nat) - 2) ((b0.toNat / 4 % 4 : Nat) - 2) ((b0.toNat % 4 : Nat) - 2)) := by
  apply decodeChunk_of_fields
  simp [chunkFields, variantOf_diff hlo hhi, bits]

theorem decodeChunk_luma (hlo : 0x80 ≤ b0.toNat) (hhi : b0.toNat < 0xC0) (b1 : Byte) (rest : List Byte) :
    decodeChunk (b0 :: b1 :: rest) = .ok
      (.luma ((b0.toNat % 64 : Nat) - 32) ((b1.toNat / 16 : Nat) - 8) ((b1.toNat % 16 : Nat) - 8)) := by
  apply decodeChunk_of_fields
  have hb1 := b1.isLt
  have hlow : bits b0 5 0 = b0.toNat % 64 := by unfold bits; omega
  have hred : bits b1 7 4 = b1.toNat / 16 := by unfold bits; omega
  have hblue : bits b1 3 0 = b1.toNat % 16 := by unfold bits; omega
  simp only [chunkFields, variantOf_luma hlo hhi, hlow, hred, hblue]

theorem decodeChunk_run (hlo : 0xC0 ≤ b0.toNat) (hhi : b0.toNat < 0xFE) (rest : List Byte) :
    decodeChunk (b0 :: rest) = .ok (.run (b0.toNat % 64 + 1)) := by
  apply decodeChunk_of_fields
  simp [chunkFields, variantOf_run hlo hhi, bits]

theorem decodeChunk_rgb (r g b : Byte) (rest : List Byte) :
    decodeChunk (0xFE :: r :: g :: b :: rest) = .ok (.rgb r g b) := rfl

theorem decodeChunk_rgba (r g b a : Byte) (rest : List Byte) :
    decodeChunk (0xFF :: r :: g :: b :: a :: rest) = .ok (.rgba r g b a) := rfl

/-- A chunk with fewer bytes than its leading byte asks for is cut short (R122 (b)): every accepted record is all there. -/
theorem decodeChunk_cut {rest : List Byte} (h : rest.length + 1 < chunkLength b0) :
    decodeChunk (b0 :: rest) = .reject (.chunkTruncated (chunkLength b0) (rest.length + 1)) := by
  cases hd : decodeChunk (b0 :: rest) with
  | ok i =>
    obtain ⟨-, -, hfit, _, _, heq, hlen⟩ := decodeChunk_ok hd
    cases heq
    rw [hlen, List.length_cons] at hfit
    omega
  | reject e =>
    rcases decodeChunk_reject hd with ⟨hnil, -⟩ | ⟨_, _, heq, -, rfl⟩
    · cases hnil
    · cases heq
      rfl

end ChunkRows

/-- Settles O4: row by row of the table, with its payload and without. -/
theorem chunkFieldsFollowLeadingByte : Obligations.ChunkFieldsFollowLeadingByte := by
  unfold Obligations.ChunkFieldsFollowLeadingByte
  intro b0 rest
  split_ifs with hindex hdiff hluma hrun hrgb
  · exact decodeChunk_index hindex rest
  · exact decodeChunk_diff (by omega) hdiff rest
  · have hlen : chunkLength b0 = 2 := by rw [chunkLength, variantOf_luma (by omega) hluma]; rfl
    cases rest with
    | nil => rw [decodeChunk_cut (by simp [hlen]), hlen]; rfl
    | cons b1 rest => exact decodeChunk_luma (by omega) hluma b1 rest
  · exact decodeChunk_run (by omega) hrun rest
  · obtain rfl : b0 = 0xFE := BitVec.eq_of_toNat_eq hrgb
    rcases rest with _ | ⟨b1, _ | ⟨b2, _ | ⟨b3, rest⟩⟩⟩
    · rfl
    · rfl
    · rfl
    · exact decodeChunk_rgb b1 b2 b3 rest
  · obtain rfl : b0 = 0xFF := eq_rgbaByte (by omega) hrgb
    rcases rest with _ | ⟨b1, _ | ⟨b2, _ | ⟨b3, _ | ⟨b4, rest⟩⟩⟩⟩
    · rfl
    · rfl
    · rfl
    · rfl
    · exact decodeChunk_rgba b1 b2 b3 b4 rest

/-- A chunk whose bytes are there is decoded (R122, R130). -/
theorem decodeChunk_of_length_le {b : Byte} {rest : List Byte} (h : chunkLength b ≤ rest.length + 1) :
    ∃ i, decodeChunk (b :: rest) = .ok i := by
  cases hd : decodeChunk (b :: rest) with
  | ok i => exact ⟨i, rfl⟩
  | reject e =>
    rcases decodeChunk_reject hd with ⟨hnil, -⟩ | ⟨_, _, heq, hcut, -⟩
    · cases hnil
    · cases heq
      rw [List.length_cons] at hcut
      omega

/-! ### Pixels emitted, by the leading byte (R86) -/

/-- How many pixels a record emits when it raises no error (R81, R82, R157 to R162). -/
def Instr.pixels : Instr → Nat
  | .hdr _ _ _ _ | .endMark => 0
  | .rgb _ _ _ | .rgba _ _ _ _ | .index _ | .diff _ _ _ | .luma _ _ _ => 1
  | .run n => n

/-- A decoded chunk emits what the table of R86 gives for its leading byte. -/
theorem decodeChunk_pixels {b : Byte} {rest : List Byte} {i : Instr} (h : decodeChunk (b :: rest) = .ok i) :
    i.pixels = Machine.pixelsByTable b.toNat := by
  rw [chunkFieldsFollowLeadingByte b rest] at h
  unfold Machine.pixelsByTable
  split_ifs at h with hindex hdiff hluma hrun hrgb
  · cases h
    rw [if_neg (by omega)]
    rfl
  · cases h
    rw [if_neg (by omega)]
    rfl
  · rw [if_neg (by omega)]
    split at h <;> cases h
    rfl
  · cases h
    rw [if_pos (by omega)]
    simp only [Instr.pixels]
    omega
  · rw [if_neg (by omega)]
    split at h <;> cases h
    rfl
  · rw [if_neg (by omega)]
    split at h <;> cases h
    rfl

/-! ### Bytes and the numbers they are written from -/

/-- A byte computed over the integers, of a value in its range. -/
theorem toNat_ofInt_byte {v : Int} (h0 : 0 ≤ v) (h1 : v < 256) : ((BitVec.ofInt 8 v).toNat : Int) = v := by
  rw [BitVec.toNat_ofInt]
  omega

theorem ofInt_eq_byte {v : Int} {b : Byte} (h : v = b.toNat) : BitVec.ofInt 8 v = b := by
  simp [h]

theorem beBytes_succ (n w : Nat) : beBytes (n + 1) w = beBytes n (w / 256) ++ [BitVec.ofNat 8 w] := by
  simp [beBytes, leBytes]

/-- The number read of some bytes is written by those bytes (R10): the converse of `beNat_beBytes`. -/
theorem beBytes_beNat (bs : List Byte) : beBytes bs.length (beNat bs) = bs := by
  induction bs using List.reverseRecOn with
  | nil => rfl
  | append_singleton bs b ih =>
    have hb := b.isLt
    have hval : beNat (bs ++ [b]) = beNat bs * 256 + b.toNat := by simp [beNat_append, beNat]
    have hhigh : (beNat bs * 256 + b.toNat) / 256 = beNat bs := by omega
    have hlow : BitVec.ofNat 8 (beNat bs * 256 + b.toNat) = b :=
      BitVec.eq_of_toNat_eq (by rw [BitVec.toNat_ofNat]; omega)
    rw [List.length_append, List.length_singleton, beBytes_succ, hval, hhigh, hlow, ih]

/-- The end-marker test of R141 as R82 has it: eight bytes are there and read 1. -/
theorem startsWithEndMarker_iff (bs : List Byte) :
    startsWithEndMarker bs = true ↔ 8 ≤ bs.length ∧ beNat (bs.take 8) = 1 := by
  constructor
  · intro h
    have htake : bs.take 8 = endMarkerBytes := by simpa [startsWithEndMarker] using h
    exact ⟨startsWithEndMarker_length h, by rw [htake]; decide⟩
  · rintro ⟨hlen, hone⟩
    have htake : beBytes 8 1 = bs.take 8 := by
      rw [← beBytes_beNat (bs.take 8), hone, List.length_take, Nat.min_eq_left hlen]
    have hmarker : beBytes 8 1 = endMarkerBytes := by decide
    simp [startsWithEndMarker, ← htake, hmarker]

/-! ### The header's fields (R111) -/

/-- The fields are read from the bytes where R81 has them. -/
theorem headerFields_layout {magic w h : List Byte} (hm : magic.length = 4) (hw : w.length = 4) (hh : h.length = 4)
    (c s : Byte) (rest : List Byte) : headerFields (magic ++ w ++ h ++ c :: s :: rest) =
      some (.hdr (BitVec.ofNat 32 (beNat w)) (BitVec.ofNat 32 (beNat h)) c s) := by
  obtain ⟨_, _, _, _, rfl⟩ := List.length_eq_four.1 hm
  obtain ⟨_, _, _, _, rfl⟩ := List.length_eq_four.1 hw
  obtain ⟨_, _, _, _, rfl⟩ := List.length_eq_four.1 hh
  rfl

/-- A header record of its width is laid out as R81 has it. -/
theorem headerFields_some_layout {bs : List Byte} {i : Instr} (h : headerFields bs = some i) :
    ∃ magic w ht c s rest, magic.length = 4 ∧ w.length = 4 ∧ ht.length = 4 ∧ bs = magic ++ w ++ ht ++ c :: s :: rest ∧
      i = .hdr (BitVec.ofNat 32 (beNat w)) (BitVec.ofNat 32 (beNat ht)) c s := by
  unfold headerFields at h
  split at h
  · next m3 m2 m1 m0 w3 w2 w1 w0 h3 h2 h1 h0 c s rest =>
    cases h
    exact ⟨[m3, m2, m1, m0], [w3, w2, w1, w0], [h3, h2, h1, h0], c, s, rest, rfl, rfl, rfl, rfl, rfl⟩
  · cases h

/-- Four bytes are the 32-bit field read of them, and back. -/
theorem beBytes_u32 {w : List Byte} (hw : w.length = 4) : beBytes 4 (BitVec.ofNat 32 (beNat w)).toNat = w := by
  have hlt := beNat_lt w
  rw [hw] at hlt
  rw [BitVec.toNat_ofNat, Nat.mod_eq_of_lt (by omega), ← hw, beBytes_beNat]

theorem u32_beBytes (w : U32) : BitVec.ofNat 32 (beNat (beBytes 4 w.toNat)) = w := by
  have hlt := w.isLt
  rw [beNat_beBytes, Nat.mod_eq_of_lt (by omega), BitVec.ofNat_toNat, BitVec.setWidth_eq]

/-! ### Decoding an encoding (R98, R99) -/

theorem decodeHeader_encode (w h : U32) (c s : Byte) (rest : List Byte) :
    decodeHeader (encode (.hdr w h c s) ++ rest) = .ok (.hdr w h c s) := by
  have hlayout : encode (.hdr w h c s) ++ rest = magicBytes ++ beBytes 4 w.toNat ++ beBytes 4 h.toNat ++ c :: s :: rest := by
    simp [encode]
  have hmagic : (encode (.hdr w h c s) ++ rest).take 4 = magicBytes := by
    rw [hlayout]
    rfl
  rw [decodeHeader, if_neg (not_not.2 hmagic), hlayout,
    headerFields_layout rfl (beBytes_length 4 _) (beBytes_length 4 _), u32_beBytes, u32_beBytes]

/-- The chunk decoder gives back every well-formed chunk from its encoding, row by row of R99. -/
theorem decodeChunk_encode {i : Instr} (hw : i.WellFormed) (hk : i.isChunk = true) (rest : List Byte) :
    decodeChunk (encode i ++ rest) = .ok i := by
  cases i with
  | hdr | endMark => cases hk
  | rgb r g b => exact decodeChunk_rgb r g b rest
  | rgba r g b a => exact decodeChunk_rgba r g b a rest
  | index n =>
    have hn := n.isLt
    have hb : (BitVec.ofNat 8 n.val).toNat = n.val := by rw [BitVec.toNat_ofNat]; omega
    rw [encode, List.singleton_append, decodeChunk_index (by omega)]
    congr 2
    exact Fin.ext hb
  | diff dr dg db =>
    simp only [Instr.WellFormed, Instr.wf, diffDeltaOk, Bool.and_eq_true, decide_eq_true_eq] at hw
    have hb := toNat_ofInt_byte (v := 0x40 + 16 * (dr + 2) + 4 * (dg + 2) + (db + 2)) (by omega) (by omega)
    rw [encode, List.singleton_append, decodeChunk_diff (by omega) (by omega)]
    congr 2 <;> omega
  | luma dg drg dbg =>
    simp only [Instr.WellFormed, Instr.wf, lumaGreenOk, lumaSideOk, Bool.and_eq_true, decide_eq_true_eq] at hw
    have hb0 := toNat_ofInt_byte (v := 0x80 + (dg + 32)) (by omega) (by omega)
    have hb1 := toNat_ofInt_byte (v := 16 * (drg + 8) + (dbg + 8)) (by omega) (by omega)
    rw [encode, List.cons_append, List.singleton_append, decodeChunk_luma (by omega) (by omega)]
    congr 2 <;> omega
  | run n =>
    simp only [Instr.WellFormed, Instr.wf, runLengthOk, Bool.and_eq_true, decide_eq_true_eq] at hw
    have hb : (BitVec.ofNat 8 (0xC0 + (n - 1))).toNat = 0xC0 + (n - 1) := by rw [BitVec.toNat_ofNat]; omega
    rw [encode, List.singleton_append, decodeChunk_run (by omega) (by omega)]
    congr 2
    omega

theorem decodeStream_of_noMarker {bs : List Byte} (h : startsWithEndMarker bs = false) : decodeStream bs = decodeChunk bs := by
  simp [decodeStream, h]

/-- A chunk stands in the stream. -/
theorem Instr.place_of_isChunk {i : Instr} (hk : i.isChunk = true) : i.place = .stream := by
  cases i with
  | hdr => cases hk
  | _ => rfl

/-- Settles O7: the header by its layout, the end marker by its test, a chunk by its row. -/
theorem decodeOfEncode : Obligations.DecodeOfEncode := by
  unfold Obligations.DecodeOfEncode
  intro i rest hw hmarker
  cases hk : i.isChunk with
  | true =>
    rw [Instr.place_of_isChunk hk, decode, decodeStream_of_noMarker (hmarker hk)]
    exact decodeChunk_encode hw hk rest
  | false =>
    cases i with
    | hdr w h c s => exact decodeHeader_encode w h c s rest
    | endMark => rfl
    | rgb | rgba | index | diff | luma | run => cases hk

/-! ### Encoding what was decoded (R99, R130) -/

/-- An accepted header starts with its record's encoding. -/
theorem encode_prefix_of_decodeHeader {bs : List Byte} {i : Instr} (h : decodeHeader bs = .ok i) : encode i <+: bs := by
  obtain ⟨-, hmagic, -⟩ := decodeHeader_ok h
  rw [decodeHeader, if_neg (not_not.2 hmagic)] at h
  split at h
  · next hf =>
    cases h
    obtain ⟨magic, w, ht, c, s, rest, hm, hw, hht, rfl, rfl⟩ := headerFields_some_layout hf
    have hm' : magic = magicBytes := by
      rwa [List.append_assoc, List.append_assoc, List.take_left' hm] at hmagic
    refine ⟨rest, ?_⟩
    rw [encode, beBytes_u32 hw, beBytes_u32 hht, hm']
    simp
  · cases h

/-- An accepted chunk starts with its record's encoding: each field of O4 goes back to the bits it came from. -/
theorem encode_prefix_of_decodeChunk {bs : List Byte} {i : Instr} (h : decodeChunk bs = .ok i) : encode i <+: bs := by
  obtain ⟨-, -, -, b0, rest, rfl, -⟩ := decodeChunk_ok h
  rw [chunkFieldsFollowLeadingByte b0 rest] at h
  split_ifs at h with hindex hdiff hluma hrun hrgb
  · cases h
    have henc : encode (.index ⟨b0.toNat, hindex⟩) = [b0] := by simp [encode]
    rw [henc]
    exact ⟨rest, rfl⟩
  · cases h
    rw [encode, ofInt_eq_byte (b := b0) (by omega)]
    exact ⟨rest, rfl⟩
  · rcases rest with _ | ⟨b1, rest⟩
    · cases h
    · cases h
      rw [encode, ofInt_eq_byte (b := b0) (by omega), ofInt_eq_byte (b := b1) (by omega)]
      exact ⟨rest, rfl⟩
  · cases h
    have henc : encode (.run (b0.toNat % 64 + 1)) = [b0] := by
      have hval : 0xC0 + (b0.toNat % 64 + 1 - 1) = b0.toNat := by omega
      rw [encode, hval, BitVec.ofNat_toNat, BitVec.setWidth_eq]
    rw [henc]
    exact ⟨rest, rfl⟩
  · obtain rfl : b0 = 0xFE := BitVec.eq_of_toNat_eq hrgb
    rcases rest with _ | ⟨b1, _ | ⟨b2, _ | ⟨b3, rest⟩⟩⟩ <;> cases h
    exact ⟨rest, rfl⟩
  · obtain rfl : b0 = 0xFF := eq_rgbaByte (by omega) hrgb
    rcases rest with _ | ⟨b1, _ | ⟨b2, _ | ⟨b3, _ | ⟨b4, rest⟩⟩⟩⟩ <;> cases h
    exact ⟨rest, rfl⟩

/-- What the decoder accepts starts with its record's encoding. -/
theorem encode_prefix_of_decode {p : Place} {bs : List Byte} {i : Instr} (h : decode p bs = .ok i) : encode i <+: bs := by
  cases p with
  | header => exact encode_prefix_of_decodeHeader h
  | stream =>
    rcases decodeStream_ok h with ⟨rfl, hmarker⟩ | ⟨-, hc⟩
    · have htake : bs.take 8 = endMarkerBytes := by simpa [startsWithEndMarker] using hmarker
      rw [encode, ← htake]
      exact List.take_prefix 8 bs
    · exact encode_prefix_of_decodeChunk hc

/-- Settles O8: the bytes read begin with the encoding, which has the record's width. -/
theorem encodeOfDecode : Obligations.EncodeOfDecode := by
  unfold Obligations.EncodeOfDecode
  intro p bs i h
  obtain ⟨hw, hp, -⟩ := decode_ok h
  have happend := List.prefix_iff_eq_append.1 (encode_prefix_of_decode h)
  rw [Laws.encode_length] at happend
  exact ⟨hw, hp, happend.symm⟩

/-- Settles O6: the marker test comes first, and it fails on every other leading byte. -/
theorem endMarkerShadowsIndex : Obligations.EndMarkerShadowsIndex := by
  unfold Obligations.EndMarkerShadowsIndex
  refine fun rest => ⟨rfl, rfl, fun b0 hb => decodeStream_of_noMarker ?_⟩
  exact decide_eq_false fun h => hb (List.cons.inj h).1

end Sys2Proof
end

section
/-! What the records emit (R86, R96) and the step over an encoded record (R98, R99, R141). -/

namespace Sys2Proof.Machine

/-! ### Pixels emitted (R86) -/

/-- A record that does not enter ERROR appends its number of pixels and counts them. -/
theorem exec_emits {i : Instr} {s t : State} (h : exec i s = .next t) (ht : t.phase ≠ .error) :
    t.npix = s.npix + i.pixels ∧ ∃ ps, ps.length = i.pixels ∧ t.out = s.out ++ ps := by
  cases i with
  | index j =>
    cases hj : s.cache[j] with
    | empty =>
      rw [exec_index_empty hj] at h
      cases h
      exact absurd rfl ht
    | full q =>
      rw [exec_index_full hj] at h
      cases h
      exact ⟨rfl, [q], rfl, rfl⟩
  | hdr | endMark =>
    cases h
    exact ⟨rfl, [], rfl, (List.append_nil _).symm⟩
  | rgb | rgba | diff | luma =>
    cases h
    exact ⟨rfl, _, List.length_replicate, rfl⟩
  | run n =>
    cases h
    exact ⟨rfl, _, List.length_replicate, rfl⟩

/-- Settles O3: the record decoded has the length and the pixels of its leading byte. -/
theorem lengthAndPixelsFollowLeadingByte : Obligations.LengthAndPixelsFollowLeadingByte := by
  unfold Obligations.LengthAndPixelsFollowLeadingByte
  refine ⟨fun b rest hfit => ?_, fun w h c cs s t hx => ?_, fun s t hx => ?_⟩
  · rw [← chunkLength_eq_lengthByTable] at hfit ⊢
    obtain ⟨i, hd⟩ := decodeChunk_of_length_le hfit
    obtain ⟨-, -, -, _, _, heq, hlen⟩ := decodeChunk_ok hd
    cases heq
    refine ⟨i, hd, (Laws.encode_length i).trans hlen, fun s t _ hx ht => ?_⟩
    obtain ⟨hcount, ps, hps, hout⟩ := exec_emits hx ht
    rw [← decodeChunk_pixels hd]
    exact ⟨hcount, by rw [hout, List.length_append, hps]⟩
  · cases hx
    exact ⟨Laws.encode_length _, rfl, rfl⟩
  · cases hx
    exact ⟨rfl, rfl, rfl⟩

/-! ### Chunks that change no channel (R96) -/

/-- `replay` is every effect of a chunk and nothing else (R156, R163). -/
theorem replay_replayed (p : Pixel) (count len : Nat) (s : State) : Replayed s (replay p count len s) p count len where
  out := rfl
  npix := rfl
  cache j := by
    rw [replay_cache]
    split_ifs with hj
    · obtain rfl : j = pixelHash p := Fin.ext hj
      exact cache_set_same _ _
    · exact cache_set_other _ _ fun heq => hj (congrArg Fin.val heq)
  prev := rfl
  pc := rfl
  phase := rfl
  hdr := rfl
  err := rfl
  rest := ⟨fun _ => rfl, rfl, rfl, rfl, rfl, rfl⟩

/-- A byte does not wrap (R12). -/
@[simp] theorem wrap8_toNat (b : Byte) : wrap8 b.toNat = b := by
  have hb := b.isLt
  have hval : ((b.toNat : Int) % 256).toNat = b.toNat := by omega
  rw [wrap8, hval, BitVec.ofNat_toNat, BitVec.setWidth_eq]

/-- Deltas of zero change no channel (R96). -/
@[simp] theorem deltaPixel_zero (p : Pixel) : deltaPixel p 0 0 0 = p := by
  simp [deltaPixel]

/-- Settles O17: each of the three replays `prev` itself. -/
theorem chunksThatChangeNothingStillEmit : Obligations.ChunksThatChangeNothingStillEmit := by
  unfold Obligations.ChunksThatChangeNothingStillEmit
  refine ⟨rfl, rfl, rfl, fun s => ⟨⟨_, rfl, ?_⟩, ⟨_, rfl, ?_⟩, ⟨_, rfl, replay_replayed s.prev 1 1 s⟩⟩⟩
  · rw [deltaPixel_zero]
    exact replay_replayed s.prev 1 1 s
  · rw [Int.add_zero, deltaPixel_zero]
    exact replay_replayed s.prev 1 2 s

/-! ### The step over an encoded record -/

/-- `MemRead` is the big-endian number of the bytes that stand there (R12, R53). -/
theorem memRead_eq_beNat {s : State} {a n : Nat} {bs : List Byte} (hn : n ≤ bs.length)
    (h : ∀ k < n, Memory.read s.inMem (a + k) = bs[k]?) : memRead s a n = beNat (bs.take n) := by
  induction n with
  | zero => rfl
  | succ n ih =>
    have hbyte : inByte s (a + n) = bs[n].toNat := by
      rw [inByte, h n (by omega), List.getElem?_eq_getElem hn]
    rw [memRead, ih (by omega) fun k hk => h k (by omega), hbyte, List.take_add_one, List.getElem?_eq_getElem hn, beNat_append]
    simp [beNat]

/-- The marker test on the fetched bytes is the test of R141 on IN. -/
theorem startsWithEndMarker_fetched {s : State} {bs : List Byte} (hf : fetchRecord .stream s = some bs) :
    startsWithEndMarker bs = true ↔ Avail s s.pc 8 ∧ memRead s s.pc 8 = 1 := by
  obtain ⟨hpc, hlen, hbytes⟩ := fetchRecord_some hf
  simp only [Place.window] at hlen
  have havail : 8 ≤ bs.length ↔ Avail s s.pc 8 := by unfold Avail; omega
  rw [startsWithEndMarker_iff, ← havail]
  exact and_congr_right fun h8 => by rw [memRead_eq_beNat h8 fun k hk => hbytes k (by omega)]

/-- The window of its place covers every record (R52). -/
theorem Instr.length_le_window (i : Instr) : i.length ≤ Place.window i.place := by
  cases i <;> simp [Instr.length, Instr.place, Place.window]

/-- A record whose encoding stands at the cursor is what the fetch begins with. -/
theorem encode_prefix_of_fetched {s : State} {i : Instr} {bs : List Byte} (hf : fetchRecord i.place s = some bs)
    (havail : Avail s s.pc i.length) (hthere : ∀ k < i.length, Memory.read s.inMem (s.pc + k) = (encode i)[k]?) :
    encode i <+: bs := by
  obtain ⟨hpc, hlen, hbytes⟩ := fetchRecord_some hf
  have hwin := Instr.length_le_window i
  have hle : i.length ≤ bs.length := by unfold Avail at havail; omega
  refine List.prefix_iff_getElem?.2 fun k hk => ?_
  rw [Laws.encode_length] at hk
  rw [← hbytes k (by omega), hthere k hk, List.getElem?_eq_getElem]

/-- On the engine's turn in the phase of a place, the step fetches and runs the record there (R110, R140). -/
theorem step_eq_runRecord {s : State} {p : Place} (hturn : engineTurn s = true)
    (hp : p = .header ∧ s.phase = .header ∨ p = .stream ∧ s.phase = .stream) : step s = runRecord p s := by
  rw [step_engine hturn, engineStep]
  rcases hp with ⟨rfl, hphase⟩ | ⟨rfl, hphase⟩ <;> rw [hphase]

/-- A step whose fetched bytes decode to a record runs that record. -/
theorem runRecord_of_decode {p : Place} {s : State} {bs : List Byte} {i : Instr} (hf : fetchRecord p s = some bs)
    (hd : decode p bs = .ok i) : runRecord p s = exec i s := by
  simp only [runRecord, hf, hd]

/-- Settles O24: the fetch begins with the encoding, which decodes to the record. -/
theorem stepRunsEncodedRecord : Obligations.StepRunsEncodedRecord := by
  unfold Obligations.StepRunsEncodedRecord
  intro s i hturn hw hplace hinput havail hthere hmarker
  have hpc : s.pc ≤ s.inLen := by unfold Avail at havail; omega
  obtain ⟨bs, hf⟩ := fetchRecord_present (p := i.place) hpc ((Memory.present_iff _ _).2 hinput)
  obtain ⟨rest, rfl⟩ := encode_prefix_of_fetched hf havail hthere
  have hnoMarker (hk : i.isChunk = true) : startsWithEndMarker (encode i ++ rest) = false := by
    rw [Instr.place_of_isChunk hk] at hf
    exact Bool.eq_false_iff.2 fun h => hmarker hk ((startsWithEndMarker_fetched hf).1 h)
  rw [step_eq_runRecord hturn hplace, runRecord_of_decode hf (decodeOfEncode i rest hw hnoMarker)]

end Sys2Proof.Machine
end

section
/-! The HDR step (R110 to R114): its three outcomes over the bytes of IN, the round trip of the header, and that nothing after it
reads HDR. -/

namespace Sys2Proof

/-! ### The Header Parser, one equation per outcome (R111, R112) -/

section HeaderParser
variable {bs : List Byte}

/-- The magic, byte by byte (R112). -/
theorem take_eq_magicBytes_iff : bs.take 4 = magicBytes ↔ 4 ≤ bs.length ∧ (bs.getD 0 0).toNat = 0x71 ∧
    (bs.getD 1 0).toNat = 0x6F ∧ (bs.getD 2 0).toNat = 0x69 ∧ (bs.getD 3 0).toNat = 0x66 := by
  rcases bs with _ | ⟨b0, _ | ⟨b1, _ | ⟨b2, _ | ⟨b3, rest⟩⟩⟩⟩ <;> simp [magicBytes, ← BitVec.toNat_inj]

/-- `FoundMagic` packs the first four bytes, an absent one as 0 (R112). -/
theorem foundMagic_eq (bs : List Byte) : foundMagic bs = (bs.getD 0 0).toNat * 256 ^ 3 + (bs.getD 1 0).toNat * 256 ^ 2 +
    (bs.getD 2 0).toNat * 256 + (bs.getD 3 0).toNat := by
  have hpad : (bs ++ [0, 0, 0, 0]).take 4 = [bs.getD 0 0, bs.getD 1 0, bs.getD 2 0, bs.getD 3 0] := by
    rcases bs with _ | ⟨b0, _ | ⟨b1, _ | ⟨b2, _ | ⟨b3, rest⟩⟩⟩⟩ <;> rfl
  rw [foundMagic, hpad]
  simp [beNat, Nat.add_assoc]

/-- `FoundMagic` has 32 bits (R112). -/
theorem foundMagic_lt (bs : List Byte) : foundMagic bs < 2 ^ 32 := by
  have h := beNat_lt ((bs ++ [0, 0, 0, 0]).take 4)
  have hlen : ((bs ++ [0, 0, 0, 0]).take 4).length = 4 := by simp
  rwa [hlen] at h

/-- The four fields of a header whose bytes are all there (R81, R111). -/
theorem headerFields_of_length_le (h : 14 ≤ bs.length) : headerFields bs = some (.hdr
    (BitVec.ofNat 32 (beNat ((bs.drop 4).take 4))) (BitVec.ofNat 32 (beNat ((bs.drop 8).take 4))) (bs.getD 12 0)
    (bs.getD 13 0)) := by
  cases hf : headerFields bs with
  | none => have := headerFields_none hf; omega
  | some i =>
    unfold headerFields at hf
    split at hf
    · cases hf
      rfl
    · cases hf

theorem decodeHeader_mismatch (hm : bs.take 4 ≠ magicBytes) :
    decodeHeader bs = .reject (.magicMismatch (foundMagic bs)) := by
  rw [decodeHeader, if_pos hm]

theorem decodeHeader_truncated (hm : bs.take 4 = magicBytes) (h : bs.length < 14) :
    decodeHeader bs = .reject (.headerTruncated bs.length) := by
  cases hf : headerFields bs with
  | none => simp [decodeHeader, hm, hf]
  | some i => have := (headerFields_some hf).1; omega

theorem decodeHeader_parsed (hm : bs.take 4 = magicBytes) (h : 14 ≤ bs.length) : decodeHeader bs = .ok (.hdr
    (BitVec.ofNat 32 (beNat ((bs.drop 4).take 4))) (BitVec.ofNat 32 (beNat ((bs.drop 8).take 4))) (bs.getD 12 0)
    (bs.getD 13 0)) := by
  simp [decodeHeader, hm, headerFields_of_length_le h]

end HeaderParser

/-- A 32-bit field holds the number of its four bytes (R10). -/
theorem toNat_u32_beNat {bs : List Byte} (h : bs.length = 4) : (BitVec.ofNat 32 (beNat bs)).toNat = beNat bs := by
  have hlt := beNat_lt bs
  rw [h] at hlt
  rw [BitVec.toNat_ofNat, Nat.mod_eq_of_lt (by omega)]

/-- Settles O1: the decoder computes each word's record. -/
theorem writtenWordsDecode : Obligations.WrittenWordsDecode :=
  ⟨rfl, rfl, rfl, rfl, rfl, rfl, rfl, rfl, rfl, rfl, rfl⟩

namespace Machine

/-! ### The fetched bytes are those of IN (R12, R52) -/

section Fetched
variable {p : Place} {s : State} {bs : List Byte} {k : Nat}

/-- A byte that was fetched. -/
theorem fetched_toNat (hf : fetchRecord p s = some bs) (hk : k < bs.length) : (bs.getD k 0).toNat = inByte s (s.pc + k) := by
  obtain ⟨-, -, hbytes⟩ := fetchRecord_some hf
  rw [inByte, hbytes k hk, List.getD_eq_getElem?_getD, List.getElem?_eq_getElem hk, Option.getD_some]

/-- A byte of the window, which is 0 where IN_LEN leaves none: `B(k)` of R112. -/
theorem fetched_toNat_padded (hf : fetchRecord p s = some bs) (hk : k < Place.window p) :
    (bs.getD k 0).toNat = if s.pc + k < s.inLen then inByte s (s.pc + k) else 0 := by
  obtain ⟨-, hlen, -⟩ := fetchRecord_some hf
  split_ifs with hin
  · exact fetched_toNat hf (by omega)
  · rw [List.getD_eq_default _ _ (by omega)]
    rfl

/-- `MemRead` inside the window. -/
theorem memRead_fetched (hf : fetchRecord p s = some bs) {n : Nat} (h : k + n ≤ bs.length) :
    memRead s (s.pc + k) n = beNat ((bs.drop k).take n) := by
  obtain ⟨-, -, hbytes⟩ := fetchRecord_some hf
  refine memRead_eq_beNat (by rw [List.length_drop]; omega) fun j hj => ?_
  rw [List.getElem?_drop, Nat.add_assoc, hbytes (k + j) (by omega)]

end Fetched

section HeaderFetched
variable {s : State} {bs : List Byte} (hpc : s.pc = 0) (hf : fetchRecord .header s = some bs)
include hpc hf

/-- How many bytes the Header Parser sees (R52). -/
theorem headerFetched_length : bs.length = min 14 s.inLen := by
  obtain ⟨-, hlen, -⟩ := fetchRecord_some hf
  rw [hlen, hpc, Nat.sub_zero, Place.window]

/-- A byte of the header that is there. -/
theorem headerFetched_toNat {k : Nat} (hk : k < 14) (hin : k < s.inLen) : (bs.getD k 0).toNat = inByte s k := by
  have hlen := headerFetched_length hpc hf
  rw [fetched_toNat hf (by omega), hpc, Nat.zero_add]

/-- The magic test on the fetched bytes is the test of R112 on IN. -/
theorem headerFetched_magic_iff : bs.take 4 = magicBytes ↔
    Avail s 0 4 ∧ inByte s 0 = 0x71 ∧ inByte s 1 = 0x6F ∧ inByte s 2 = 0x69 ∧ inByte s 3 = 0x66 := by
  have hlen := headerFetched_length hpc hf
  have havail : 4 ≤ bs.length ↔ Avail s 0 4 := by unfold Avail; omega
  have hbyte {k : Nat} (h : Avail s 0 4) (hk : k < 4) : (bs.getD k 0).toNat = inByte s k :=
    headerFetched_toNat hpc hf (by omega) (by unfold Avail at h; omega)
  rw [take_eq_magicBytes_iff, havail]
  refine and_congr_right fun h => ?_
  rw [hbyte h (by omega), hbyte h (by omega), hbyte h (by omega), hbyte h (by omega)]

/-- `FoundMagic` of the fetched bytes is that of IN (R112). -/
theorem headerFetched_foundMagic : foundMagic bs = foundMagicOf s := by
  have hbyte {k : Nat} (hk : k < 4) : (bs.getD k 0).toNat = if k < s.inLen then inByte s k else 0 := by
    have hpad := fetched_toNat_padded hf (k := k) (by rw [Place.window]; omega)
    rwa [hpc, Nat.zero_add] at hpad
  rw [foundMagic_eq, hbyte (by omega), hbyte (by omega), hbyte (by omega), hbyte (by omega), foundMagicOf]

/-- A 32-bit field read of the fetched bytes is `MemRead` (R111). -/
theorem headerFetched_u32 {k : Nat} (hk : k + 4 ≤ bs.length) :
    (BitVec.ofNat 32 (beNat ((bs.drop k).take 4))).toNat = memRead s k 4 := by
  have hread := memRead_fetched hf hk
  rw [hpc, Nat.zero_add] at hread
  rw [toNat_u32_beNat (by rw [List.length_take, List.length_drop]; omega), hread]

end HeaderFetched

/-! ### The outcomes of the HDR step (R111, R182, R185, R186) -/

/-- `raiseError` is error entry with that record, where both numbers fit their registers (R32, R186). -/
theorem raiseError_errorEntry (c : ErrorCause) (off : Nat) {exp fnd : Nat} (s : State) (hexp : exp < 2 ^ 64)
    (hfnd : fnd < 2 ^ 64) : ErrorEntry s (raiseError c off exp fnd s) c.kindCode.toNat c.code.toNat off exp fnd where
  phase := rfl
  kind := rfl
  cause := rfl
  offset := rfl
  expected := by rw [raiseError_err, BitVec.toNat_ofNat, Nat.mod_eq_of_lt hexp]
  found := by rw [raiseError_err, BitVec.toNat_ofNat, Nat.mod_eq_of_lt hfnd]
  pc := rfl
  prev := rfl
  cache _ := rfl
  out := rfl
  npix := rfl
  hdr := rfl
  rest := ⟨fun _ => rfl, rfl, rfl, rfl, rfl, rfl⟩

/-- A step whose fetched bytes are rejected enters the error of the rejection. -/
theorem runRecord_of_reject {p : Place} {s : State} {bs : List Byte} {e : DecodeError} (hf : fetchRecord p s = some bs)
    (hd : decode p bs = .reject e) : runRecord p s = .next (raiseDecodeError e s) := by
  simp only [runRecord, hf, hd]

/-- Settles O9: the effect of HDR on each field. -/
theorem hdrRecordCompletes : Obligations.HdrRecordCompletes := by
  unfold Obligations.HdrRecordCompletes
  intro w h c cs s
  exact ⟨_, rfl, rfl, rfl, rfl, rfl, rfl, rfl, rfl, fun _ => rfl, rfl, rfl, rfl, fun _ => rfl, rfl, rfl, rfl, rfl, rfl⟩

/-- Settles O23: the step is the record step of the phase, which runs what the decoder gives it. -/
theorem stepRunsDecodedRecord : Obligations.StepRunsDecodedRecord := by
  unfold Obligations.StepRunsDecodedRecord
  intro s p bs i hturn hplace hf hd
  rw [step_eq_runRecord hturn hplace, runRecord_of_decode hf hd]

/-- Settles O25: the parser's three answers over the bytes fetched from offset 0. -/
theorem headerStepParsesOrRaises : Obligations.HeaderStepParsesOrRaises := by
  unfold Obligations.HeaderStepParsesOrRaises
  intro s hphase hpc hturn hinput
  obtain ⟨bs, hf⟩ := fetchRecord_present (p := .header) (hpc ▸ Nat.zero_le _) ((Memory.present_iff _ _).2 hinput)
  have hstep : step s = runRecord .header s := step_eq_runRecord hturn (.inl ⟨rfl, hphase⟩)
  have hlen := headerFetched_length hpc hf
  rw [hstep]
  split_ifs with hmagic hshort
  · rw [← headerFetched_magic_iff hpc hf] at hmagic
    have hall : bs.length = s.inLen := by omega
    refine ⟨_, runRecord_of_reject hf (decodeHeader_truncated hmagic (by omega)), ?_⟩
    rw [raiseDecodeError, hpc, hall]
    exact raiseError_errorEntry .headerTruncated 0 s (by omega) (by omega)
  · rw [← headerFetched_magic_iff hpc hf] at hmagic
    have hfull : bs.length = 14 := by omega
    refine ⟨_, runRecord_of_decode hf (decodeHeader_parsed hmagic hfull.ge),
      headerFetched_u32 hpc hf (by omega), headerFetched_u32 hpc hf (by omega),
      headerFetched_toNat hpc hf (by omega) (by omega), headerFetched_toNat hpc hf (by omega) (by omega), ?_⟩
    exact ⟨rfl, rfl, rfl, rfl, rfl, rfl, rfl, fun _ => rfl, rfl, rfl, rfl, rfl, rfl⟩
  · rw [← headerFetched_magic_iff hpc hf] at hmagic
    refine ⟨_, runRecord_of_reject hf (decodeHeader_mismatch hmagic), ?_⟩
    have hfound := foundMagic_lt bs
    rw [raiseDecodeError, hpc, ← headerFetched_foundMagic hpc hf]
    exact raiseError_errorEntry .magicMismatch 0 s (by decide) (by omega)

/-- Settles O26: the step runs the HDR record encoded at offset 0 (O24). -/
theorem headerRoundTrip : Obligations.HeaderRoundTrip := by
  unfold Obligations.HeaderRoundTrip
  intro w h c cs s hphase hpc hturn hinput hlen hthere
  have havail : Avail s s.pc (Instr.hdr w h c cs).length := by rw [hpc]; simpa [Avail, Instr.length] using hlen
  have hstep : step s = exec (.hdr w h c cs) s :=
    stepRunsEncodedRecord s (.hdr w h c cs) hturn rfl (.inl ⟨rfl, hphase⟩) hinput havail
      (fun k hk => by rw [hpc, Nat.zero_add]; exact hthere k hk) nofun
  exact ⟨_, hstep, rfl, rfl⟩

/-! ### HDR is never read again (R113) -/

/-- The state with another header in HDR. -/
def State.withHeader (s : State) (h : Header) : State := { s with hdr := h }

@[simp] theorem State.withHeader_phase (s : State) (h : Header) : (s.withHeader h).phase = s.phase := rfl

/-- A record of the stream does the same whatever stands in HDR. -/
theorem exec_withHeader {i : Instr} {s t : State} (h : Header) (hi : i.place = .stream) (hx : exec i s = .next t) :
    exec i (s.withHeader h) = .next (t.withHeader h) := by
  cases i with
  | hdr => cases hi
  | index j =>
    cases hj : s.cache[j] with
    | empty =>
      rw [exec_index_empty hj] at hx
      cases hx
      exact exec_index_empty (s := s.withHeader h) hj
    | full q =>
      rw [exec_index_full hj] at hx
      cases hx
      exact exec_index_full (s := s.withHeader h) hj
  | endMark | rgb | rgba | diff | luma | run =>
    cases hx
    rfl

/-- Error entry reads nothing of HDR. -/
theorem raiseDecodeError_withHeader (e : DecodeError) (s : State) (h : Header) :
    raiseDecodeError e (s.withHeader h) = (raiseDecodeError e s).withHeader h := by
  cases e <;> rfl

/-- The stream step does the same whatever stands in HDR: the fetch reads none of it, nor does the record it finds. -/
theorem runRecord_stream_withHeader {s t : State} (h : Header) (hr : runRecord .stream s = .next t) :
    runRecord .stream (s.withHeader h) = .next (t.withHeader h) := by
  obtain ⟨bs, hb, ⟨i, hi, hx⟩ | ⟨e, he, rfl⟩⟩ := runRecord_next hr
  · obtain ⟨-, hplace, -⟩ := decode_ok hi
    rw [runRecord_of_decode (s := s.withHeader h) hb hi, exec_withHeader h hplace hx]
  · rw [runRecord_of_reject (s := s.withHeader h) hb he, raiseDecodeError_withHeader]

/-- Outside phase HEADER the engine's step does the same whatever stands in HDR. -/
theorem engineStep_withHeader {s t : State} (h : Header) (hp : s.phase ≠ .header) (hs : engineStep s = .next t) :
    engineStep (s.withHeader h) = .next (t.withHeader h) := by
  cases hphase : s.phase with
  | header => exact absurd hphase hp
  | stream =>
    simp only [engineStep, State.withHeader_phase, hphase] at hs ⊢
    exact runRecord_stream_withHeader h hs
  | idle | done | error =>
    have hrun : s.phase.running = false := by simp [hphase, Phase.running]
    rw [engineStep_frozen hrun] at hs
    cases hs
    exact engineStep_frozen hrun

/-- The engine never goes back to phase HEADER (R29). -/
theorem EngineMove.phase_ne_header {s t : State} (hm : EngineMove s t) (hp : s.phase ≠ .header) : t.phase ≠ .header := by
  cases hm with
  | frozen | chunk => exact hp
  | header | endMark | raised => exact nofun

/-- Once past the HDR step, a run with no host action pending does the same whatever stands in HDR. -/
theorem runSteps_withHeader {k : Nat} {s t : State} (h : Header) (hp : s.phase ≠ .header) (hhost : s.host = [])
    (hr : runSteps k s = .next t) : runSteps k (s.withHeader h) = .next (t.withHeader h) := by
  induction k generalizing s with
  | zero =>
    cases hr
    rfl
  | succ k ih =>
    obtain ⟨u, hstep, hrest⟩ := runSteps_succ_next hr
    have hturn := engineTurn_nil hhost
    have hm := step_move hturn hstep
    have hstep' : step (s.withHeader h) = .next (u.withHeader h) := by
      rw [step_engine (engineTurn_nil (s := s.withHeader h) hhost)]
      exact engineStep_withHeader h hp (step_engine hturn ▸ hstep)
    rw [runSteps_succ k hstep']
    exact ih (hm.phase_ne_header hp) (hm.sameSurroundings.host.trans hhost) hrest

/-- Settles O44: a stream is past the HDR step, and the engine does not go back to it. -/
theorem streamNeverReadsHeader : Obligations.StreamNeverReadsHeader := by
  unfold Obligations.StreamNeverReadsHeader
  intro k s t h hp hhost hr
  exact runSteps_withHeader h (by simp [hp]) hhost hr

end Machine

end Sys2Proof
end

section
/-! The chunk decoder is total (R122, R130): a record where the bytes are there, a named failure where they are not. -/

namespace Sys2Proof.Machine

/-- Settles O5: the length the decoder asks for is the table's (R86); with those bytes there it accepts, and what it accepts is a
well-formed chunk; with fewer the chunk is cut short. -/
theorem chunkDecoderIsTotal : Obligations.ChunkDecoderIsTotal := by
  unfold Obligations.ChunkDecoderIsTotal
  refine ⟨rfl, fun b0 rest => ?_⟩
  rw [← chunkLength_eq_lengthByTable b0]
  refine ⟨fun hpresent => ?_, decodeChunk_cut⟩
  obtain ⟨i, hi⟩ := decodeChunk_of_length_le hpresent
  obtain ⟨hwf, hchunk, -⟩ := decodeChunk_ok hi
  exact ⟨i, hi, hwf, hchunk⟩

end Sys2Proof.Machine
end

section
/-! The stream sequencer (R142 to R144): the END record, a tail too short for the end marker, and the run over a whole container. -/

namespace Sys2Proof.Machine

/-- Settles O10: the effect of END on each field. -/
theorem endRecordCompletes : Obligations.EndRecordCompletes := by
  unfold Obligations.EndRecordCompletes
  intro s
  exact ⟨_, rfl, rfl, rfl, rfl, fun _ => rfl, rfl, rfl, rfl, rfl, fun _ => rfl, rfl, rfl, rfl, rfl, rfl⟩

/-! ### Fewer than eight bytes left (R144) -/

/-- The run has ended in an error of the stream: CHUNK_TRUNCATED, END_MARKER_MISSING or CACHE_SLOT_EMPTY (R181). -/
def State.StreamFailed (t : State) : Prop :=
  t.phase = .error ∧ (t.err.cause = 3 ∨ t.err.cause = 4 ∨ t.err.cause = 5)

/-- A stream that stands alone, with too few bytes left for the end marker. -/
structure State.ShortTail (s : State) : Prop where
  phase : s.phase = .stream
  host : s.host = []
  cursor : s.pc ≤ s.inLen
  short : s.inLen < s.pc + 8

/-- A fetched record is run or its rejection raised: there is a next state. -/
theorem runRecord_next_of_fetched {p : Place} {s : State} {bs : List Byte} (hf : fetchRecord p s = some bs) :
    ∃ t, runRecord p s = .next t := by
  cases hd : decode p bs with
  | ok i => rw [runRecord_of_decode hf hd]; exact exec_next i s
  | reject e => exact ⟨_, runRecord_of_reject hf hd⟩

/-- What the engine keeps of the input is still all there. -/
theorem SameSurroundings.inputThere {s t : State} (h : SameSurroundings s t) (hinput : InputThere s) : InputThere t := by
  intro k hk
  rw [h.input]
  exact hinput k (h.len ▸ hk)

/-- The rejections of the stream decoder are CHUNK_TRUNCATED and END_MARKER_MISSING (R183, R184). -/
theorem raiseDecodeError_streamFailed {bs : List Byte} {e : DecodeError} (h : decodeStream bs = .reject e) (s : State) :
    (raiseDecodeError e s).StreamFailed := by
  rcases decodeChunk_reject (decodeStream_reject h).2 with ⟨-, rfl⟩ | ⟨b0, rest, -, -, rfl⟩
  · exact ⟨rfl, .inr (.inl rfl)⟩
  · exact ⟨rfl, .inl rfl⟩

/-- A stream step that enters ERROR has one of the three causes of the stream. -/
theorem streamStep_failed {s t : State} (hp : s.phase = .stream) (h : engineStep s = .next t) (ht : t.phase = .error) :
    t.StreamFailed := by
  simp only [engineStep, hp] at h
  obtain ⟨bs, -, ⟨i, hi, hx⟩ | ⟨e, he, rfl⟩⟩ := runRecord_next h
  · rcases decodeStream_ok hi with ⟨rfl, -⟩ | ⟨-, hc⟩
    · cases hx
      cases ht
    · obtain ⟨hwf, hk, -⟩ := decodeChunk_ok hc
      rcases exec_chunk_cases hwf hk hx with ⟨p, n, -, -, rfl⟩ | ⟨j, -, -, rfl⟩
      · simp [hp] at ht
      · exact ⟨rfl, .inr (.inr rfl)⟩
  · exact raiseDecodeError_streamFailed he s

namespace State.ShortTail
variable {s t : State}

/-- The marker test is false where fewer than eight bytes are left (R144). -/
theorem decode_eq_decodeChunk (hs : s.ShortTail) {bs : List Byte} (hf : fetchRecord .stream s = some bs) :
    decode .stream bs = decodeChunk bs := by
  refine decodeStream_of_noMarker (Bool.eq_false_iff.2 fun hmarker => ?_)
  have hlen := startsWithEndMarker_length hmarker
  have hfetched := (fetchRecord_some hf).2.1
  have hshort := hs.short
  omega

/-- A step in a short tail consumes a chunk and stays in it, or fails. -/
theorem step_cases (hs : s.ShortTail) (h : step s = .next t) :
    (t.ShortTail ∧ t.inLen - t.pc < s.inLen - s.pc) ∨ t.StreamFailed := by
  have hturn := engineTurn_nil hs.host
  have hphase := hs.phase
  have hshort := hs.short
  cases step_move hturn h with
  | frozen hrun => simp [hphase, Phase.running] at hrun
  | header _ hp => simp [hphase] at hp
  | endMark _ hfit => omega
  | chunk p n _ hfit =>
    have hpos := lengthByTable_pos (inByte s s.pc)
    refine .inl ⟨⟨hphase, hs.host, hfit, ?_⟩, ?_⟩ <;> simp only [replay_pc, replay_inLen] <;> omega
  | raised => exact .inr (streamStep_failed hphase (step_engine hturn ▸ h) rfl)

/-- After any number of steps a short tail is still in the stream or has failed: it never ends in DONE. -/
theorem runSteps_stream_or_failed {k : Nat} (hs : s.ShortTail) (h : runSteps k s = .next t) :
    t.phase = .stream ∨ t.StreamFailed := by
  induction k generalizing s with
  | zero =>
    cases h
    exact .inl hs.phase
  | succ k ih =>
    obtain ⟨u, hstep, hrest⟩ := runSteps_succ_next h
    rcases hs.step_cases hstep with ⟨hu, -⟩ | hfailed
    · exact ih hu hrest
    · have hhost := (step_move (engineTurn_nil hs.host) hstep).sameSurroundings.host.trans hs.host
      rw [runSteps_frozen k hhost (by simp [hfailed.1, Phase.running])] at hrest
      cases hrest
      exact .inr hfailed

/-- With its input there a short tail has a next step. -/
theorem exists_step (hs : s.ShortTail) (hinput : InputThere s) : ∃ t, step s = .next t := by
  obtain ⟨bs, hf⟩ := fetchRecord_present (p := .stream) hs.cursor ((Memory.present_iff _ _).2 hinput)
  rw [step_eq_runRecord (engineTurn_nil hs.host) (.inr ⟨rfl, hs.phase⟩)]
  exact runRecord_next_of_fetched hf

/-- A short tail fails after at most one step more than it has bytes: every step before the last consumes one. -/
theorem exists_failed (hs : s.ShortTail) (hinput : InputThere s) :
    ∃ k t, k ≤ s.inLen - s.pc + 1 ∧ runSteps k s = .next t ∧ t.StreamFailed := by
  induction hleft : s.inLen - s.pc using Nat.strong_induction_on generalizing s with
  | _ left ih =>
    obtain ⟨u, hstep⟩ := hs.exists_step hinput
    rcases hs.step_cases hstep with ⟨hu, hless⟩ | hfailed
    · have hsame := (step_move (engineTurn_nil hs.host) hstep).sameSurroundings
      obtain ⟨k, t, hk, hrun, ht⟩ := ih _ (hleft ▸ hless) hu (hsame.inputThere hinput) rfl
      exact ⟨k + 1, t, by omega, by rw [runSteps_succ k hstep, hrun], ht⟩
    · exact ⟨1, u, by omega, by rw [runSteps_succ 0 hstep, runSteps_zero], hfailed⟩

end State.ShortTail

/-- Settles O28: the marker does not fit into a short tail, and each of its steps consumes a byte or fails. -/
theorem fewerThanEightBytesNeverDone : Obligations.FewerThanEightBytesNeverDone := by
  unfold Obligations.FewerThanEightBytesNeverDone
  intro s hphase hhost hsome hfew
  have hs : s.ShortTail := ⟨hphase, hhost, by omega, by omega⟩
  exact ⟨fun _ => hs.decode_eq_decodeChunk, fun _ _ => hs.runSteps_stream_or_failed, hs.exists_failed⟩

/-! ### The run over a whole container (R143) -/

/-- The input from the cursor on is `bs`. -/
structure State.InputAhead (s : State) (bs : List Byte) : Prop where
  length : s.inLen = s.pc + bs.length
  bytes : ∀ k < bs.length, Memory.read s.inMem (s.pc + k) = bs[k]?

namespace State.InputAhead
variable {s t : State} {bs rest : List Byte} {i : Instr}

/-- The fetch takes its window of the input ahead (R52). -/
theorem fetchRecord_eq (h : s.InputAhead bs) (p : Place) : fetchRecord p s = some (bs.take (Place.window p)) := by
  have hlen := h.length
  rw [fetchRecord, if_pos (by omega), Memory.readBytes_spec]
  refine ⟨by rw [List.length_take]; omega, fun k hk => ?_⟩
  rw [h.bytes k (by omega), List.getElem?_take_of_lt (by omega)]

/-- The step runs the record whose encoding lies ahead, a chunk where the marker's eight bytes do not (R98). -/
theorem step_eq_exec (h : s.InputAhead (encode i ++ rest)) (hhost : s.host = [])
    (hplace : i.place = .header ∧ s.phase = .header ∨ i.place = .stream ∧ s.phase = .stream) (hw : i.WellFormed)
    (hmarker : i.isChunk = true → startsWithEndMarker (encode i ++ rest) = false) : step s = exec i s := by
  have hfit : (encode i).length ≤ Place.window i.place := Laws.encode_length i ▸ Instr.length_le_window i
  have hf := h.fetchRecord_eq i.place
  have hseen (hk : i.isChunk = true) :
      startsWithEndMarker ((encode i ++ rest).take (Place.window i.place)) = false := by
    rw [← hmarker hk, Instr.place_of_isChunk hk]
    simp [startsWithEndMarker, Place.window, List.take_take]
  rw [List.take_append, List.take_of_length_le hfit] at hf hseen
  rw [step_eq_runRecord (engineTurn_nil hhost) hplace, runRecord_of_decode hf (decodeOfEncode i _ hw hseen)]

/-- Past a record the rest lies ahead. -/
theorem advance (h : s.InputAhead (encode i ++ rest)) (hsame : SameSurroundings s t) (hpc : t.pc = s.pc + i.length) :
    t.InputAhead rest := by
  have hlen := h.length
  have henc := Laws.encode_length i
  rw [List.length_append] at hlen
  refine ⟨by rw [hsame.len]; omega, fun k hk => ?_⟩
  have hbyte := h.bytes (i.length + k) (by rw [List.length_append]; omega)
  rw [List.getElem?_append_right (by omega), henc, Nat.add_sub_cancel_left] at hbyte
  rw [hsame.input, hpc, Nat.add_assoc, hbyte]

end State.InputAhead

/-- Where replaying the chunks leaves `t`, the run over them and the end marker leaves this (R142, R143). -/
def State.afterMarker (t : State) : State := if t.phase = .error then t else { t with pc := t.pc + 8, phase := .done }

theorem State.afterMarker_of_error {t : State} (h : t.phase = .error) : t.afterMarker = t := if_pos h

theorem State.afterMarker_of_ne {t : State} (h : t.phase ≠ .error) :
    t.afterMarker = { t with pc := t.pc + 8, phase := .done } := if_neg h

/-- The replay goes on past a chunk that raised no error, and stops at one that did (R156). -/
theorem replayChunks_cons {i : Instr} {is : List Instr} {s u : State} (h : exec i s = .next u) :
    replayChunks (i :: is) s = if u.phase = .error then .next u else replayChunks is u := by
  simp only [replayChunks, h]

/-- The end marker ahead ends the run in one step. -/
theorem runSteps_endMark {tail : List Byte} {s : State} (h : s.InputAhead (endMarkerBytes ++ tail)) (hp : s.phase = .stream)
    (hhost : s.host = []) : runSteps 1 s = .next s.afterMarker := by
  have hstep : step s = exec .endMark s :=
    State.InputAhead.step_eq_exec (i := .endMark) h hhost (.inr ⟨rfl, hp⟩) rfl nofun
  rw [runSteps_succ 0 hstep, runSteps_zero, State.afterMarker_of_ne (by simp [hp])]

/-- The stream over well-formed chunks and the end marker ends as the replay of the chunks does: each step is the replay's, and in
the first error both stop. -/
theorem runSteps_eq_replayChunks {chunks : List Instr} {tail : List Byte} {s t : State}
    (hchunks : ∀ i ∈ chunks, i.WellFormed ∧ i.isChunk = true) (hmarker : NoEarlyMarker chunks tail)
    (h : s.InputAhead (chunks.flatMap encode ++ (endMarkerBytes ++ tail))) (hp : s.phase = .stream) (hhost : s.host = [])
    (hreplay : replayChunks chunks s = .next t) : runSteps (chunks.length + 1) s = .next t.afterMarker := by
  induction chunks generalizing s with
  | nil =>
    cases hreplay
    exact runSteps_endMark h hp hhost
  | cons i is ih =>
    obtain ⟨⟨hw, hk⟩, his⟩ := List.forall_mem_cons.1 hchunks
    obtain ⟨hnone, hlater⟩ := hmarker
    rw [List.flatMap_cons, List.append_assoc] at h hnone
    obtain ⟨u, hx⟩ := exec_next i s
    have hstep : step s = .next u :=
      (h.step_eq_exec hhost (.inr ⟨Instr.place_of_isChunk hk, hp⟩) hw fun _ => hnone).trans hx
    have hsame := (step_move (engineTurn_nil hhost) hstep).sameSurroundings
    have huhost := hsame.host.trans hhost
    rw [replayChunks_cons hx] at hreplay
    rw [List.length_cons, runSteps_succ _ hstep]
    rcases exec_chunk_cases hw hk hx with ⟨p, n, -, -, rfl⟩ | ⟨j, -, -, hraised⟩
    · rw [if_neg (by simp [hp])] at hreplay
      exact ih his hlater (h.advance hsame rfl) hp huhost hreplay
    · have herror : u.phase = .error := hraised ▸ rfl
      rw [if_pos herror] at hreplay
      cases hreplay
      rw [runSteps_frozen _ huhost (by simp [herror, Phase.running]), State.afterMarker_of_error herror]

/-- Settles O45: the HDR step, then the stream over the chunks and the marker. -/
theorem fusedPassReplaysChunkSequence : Obligations.FusedPassReplaysChunkSequence := by
  unfold Obligations.FusedPassReplaysChunkSequence
  intro w h c cs chunks tail s t hchunks hmarker hlaunch hlen hbytes hreplay
  have hpc := hlaunch.cursor
  have hahead : s.InputAhead (container (.hdr w h c cs) chunks tail) :=
    ⟨by omega, fun k hk => by rw [hpc, Nat.zero_add]; exact hbytes k (hlen ▸ hk)⟩
  have hstep : step s = exec (.hdr w h c cs) s :=
    hahead.step_eq_exec hlaunch.hostWaits (.inl ⟨rfl, hlaunch.started⟩) rfl nofun
  rw [runSteps_succ _ hstep]
  have hrest := hahead.advance (t := { s with hdr := ⟨w, h, c, cs⟩, pc := 14, phase := .stream })
    ⟨fun _ => rfl, rfl, rfl, rfl, rfl, rfl⟩ (by rw [hpc]; rfl)
  exact runSteps_eq_replayChunks hchunks hmarker hrest rfl hlaunch.hostWaits hreplay

end Sys2Proof.Machine
end

section
/-! The pixel replay (R155 to R163): the hash, the effect of each chunk, what a chunk reads, and its one cache write. -/

namespace Sys2Proof.Machine

/-! ### The arithmetic of bytes (R12, R155) -/

/-- `wrap8` is the mathematical modulus (R12). -/
theorem toNat_wrap8 (v : Int) : ((wrap8 v).toNat : Int) = v % 256 := by
  rw [wrap8, BitVec.toNat_ofNat]
  omega

/-- Settles O18: 64 divides 256, so the sum of bytes may wrap. -/
theorem hashOverNaturalsAndBytes : Obligations.HashOverNaturalsAndBytes := by
  unfold Obligations.HashOverNaturalsAndBytes
  intro p
  have hval : (pixelHash p).val = (3 * p.r.toNat + 5 * p.g.toNat + 7 * p.b.toNat + 11 * p.a.toNat) % 64 := rfl
  have hr := p.r.isLt
  have hg := p.g.isLt
  have hb := p.b.isLt
  have ha := p.a.isLt
  refine ⟨by omega, by omega, ?_⟩
  have hwrap : (p.r * 3 + p.g * 5 + p.b * 7 + p.a * 11 : Byte).toNat =
      (p.r.toNat * 3 + p.g.toNat * 5 + p.b.toNat * 7 + p.a.toNat * 11) % 256 := by
    simp [BitVec.toNat_add, BitVec.toNat_mul]
  omega

/-! ### The effect of each chunk (R157 to R162) -/

/-- Settles O11: RGB replays the literal pixel. -/
theorem rgbReplays : Obligations.RgbReplays := by
  unfold Obligations.RgbReplays
  exact fun _ _ _ s => ⟨_, rfl, replay_replayed _ 1 4 s⟩

/-- Settles O12: RGBA replays its own four bytes. -/
theorem rgbaReplays : Obligations.RgbaReplays := by
  unfold Obligations.RgbaReplays
  exact fun _ _ _ _ s => ⟨_, rfl, replay_replayed _ 1 5 s⟩

/-- Settles O13: the slot is full and its pixel is replayed, or it is empty and the error is raised. -/
theorem indexReplaysOrRaises : Obligations.IndexReplaysOrRaises := by
  unfold Obligations.IndexReplaysOrRaises
  intro i s
  have hi : i.val < 2 ^ 64 := i.isLt.trans (by decide)
  exact ⟨fun q hfull => ⟨_, exec_index_full hfull, replay_replayed q 1 1 s⟩,
    fun hempty => ⟨_, exec_index_empty hempty, raiseError_errorEntry .cacheSlotEmpty s.pc s hi (by decide)⟩⟩

/-- Settles O14: DIFF replays `prev` with its three deltas added. -/
theorem diffReplays : Obligations.DiffReplays := by
  unfold Obligations.DiffReplays
  exact fun _ _ _ s => ⟨_, _, rfl, replay_replayed _ 1 1 s, toNat_wrap8 _, toNat_wrap8 _, toNat_wrap8 _, rfl⟩

/-- Settles O15: LUMA replays `prev` with three deltas, two of them the sum of two operands. -/
theorem lumaReplays : Obligations.LumaReplays := by
  unfold Obligations.LumaReplays
  intro dg drMinusDg dbMinusDg s
  refine ⟨_, _, rfl, replay_replayed _ 1 2 s, ?_, toNat_wrap8 _, ?_, rfl⟩
  · rw [Int.add_assoc]
    exact toNat_wrap8 _
  · rw [Int.add_assoc]
    exact toNat_wrap8 _

/-- Settles O16: RUN replays `prev` itself. -/
theorem runReplays : Obligations.RunReplays := by
  unfold Obligations.RunReplays
  exact fun n s => ⟨_, rfl, replay_replayed s.prev n 1 s⟩

/-! ### What a chunk reads and what it can change (R156, R158, R159) -/

/-- What a chunk does is settled by `prev` and the cache alone: it replays the same pixel on every state that has them, or is an
INDEX that raises on every such state (R156). -/
theorem exec_chunk_of_prev_cache {i : Instr} (hk : i.isChunk = true) (prev : Pixel) (cache : Vector Slot 64) :
    (∃ p, ∀ s : State, s.prev = prev → s.cache = cache → exec i s = .next (replay p i.pixels i.length s)) ∨
    (∃ j, i = .index j ∧ ∀ s : State, s.cache = cache → exec i s = .next (raiseError .cacheSlotEmpty s.pc j.val 0 s)) := by
  cases i with
  | hdr | endMark => cases hk
  | index j =>
    cases hj : cache[j] with
    | empty =>
      refine .inr ⟨j, rfl, ?_⟩
      rintro s rfl
      exact exec_index_empty hj
    | full q =>
      refine .inl ⟨q, ?_⟩
      rintro s - rfl
      exact exec_index_full hj
  | rgb r g b => exact .inl ⟨literalPixel prev r g b, by rintro s rfl -; rfl⟩
  | rgba r g b a => exact .inl ⟨⟨r, g, b, a⟩, fun _ _ _ => rfl⟩
  | diff dr dg db => exact .inl ⟨deltaPixel prev dr dg db, by rintro s rfl -; rfl⟩
  | luma dg drg dbg => exact .inl ⟨deltaPixel prev (dg + drg) dg (dg + dbg), by rintro s rfl -; rfl⟩
  | run n => exact .inl ⟨prev, by rintro s rfl -; rfl⟩

/-- Settles O19: both states replay the same pixel, or both raise and append nothing. -/
theorem replayReadsOnlyPrevAndCache : Obligations.ReplayReadsOnlyPrevAndCache := by
  unfold Obligations.ReplayReadsOnlyPrevAndCache
  intro i s s' t t' hk hprev hcache hphase h h'
  rcases exec_chunk_of_prev_cache hk s'.prev s'.cache with ⟨p, hreplay⟩ | ⟨j, -, hraise⟩
  · rw [hreplay s hprev hcache] at h
    rw [hreplay s' rfl rfl] at h'
    cases h
    cases h'
    exact ⟨rfl, by rw [replay_cache, replay_cache, hcache], hphase, List.replicate i.pixels p, by simp⟩
  · rw [hraise s hcache] at h
    rw [hraise s' rfl] at h'
    cases h
    cases h'
    exact ⟨hprev, hcache, rfl, [], by simp⟩

/-- Settles O20: every other record leaves `prev` alone or gives the new pixel the alpha of `prev`. -/
theorem onlyRgbaAndIndexChangeAlpha : Obligations.OnlyRgbaAndIndexChangeAlpha := by
  unfold Obligations.OnlyRgbaAndIndexChangeAlpha
  intro i s t h halpha
  cases i with
  | rgba r g b a => exact .inl ⟨r, g, b, a, rfl⟩
  | index n => exact .inr ⟨n, rfl⟩
  | hdr | endMark | rgb | diff | luma | run =>
    cases h
    exact absurd rfl halpha

/-- Writing back a pixel that its slot already holds changes nothing (R159, R163). -/
theorem cache_set_of_full {v : Vector Slot 64} {p : Pixel} (h : v[pixelHash p] = .full p) :
    v.set (pixelHash p) (.full p) = v := by
  rw [← h]
  exact Vector.set_getElem_self _

/-- Settles O21: the pixel read from a full slot is written back into that same slot, its hash being the slot's number. -/
theorem indexNeverChangesCache : Obligations.IndexNeverChangesCache := by
  unfold Obligations.IndexNeverChangesCache
  intro i s t hhash h
  cases hi : s.cache[i] with
  | empty =>
    rw [exec_index_empty hi] at h
    cases h
    rfl
  | full q =>
    rw [exec_index_full hi] at h
    cases h
    obtain rfl := hhash i q hi
    exact cache_set_of_full hi

/-! ### The one cache write of a chunk step (R163, R164) -/

/-- The last pixel a replay emits is the one it replays. -/
theorem replay_getLast? {n : Nat} (hpos : 1 ≤ n) (p : Pixel) (len : Nat) (s : State) :
    (replay p n len s).out.getLast? = some p := by
  rw [replay_out, List.getLast?_append, List.getLast?_replicate, if_neg (by omega), Option.some_or]

/-- Settles O30: of the engine's moves only a chunk goes from STREAM to STREAM, and only a chunk writes a slot. -/
theorem everyChunkWritesBackItsLastPixel : Obligations.EveryChunkWritesBackItsLastPixel := by
  unfold Obligations.EveryChunkWritesBackItsLastPixel
  refine ⟨fun s t hp hturn h ht => ?_, fun s t hturn h hno j => ?_⟩
  · cases step_move hturn h with
    | chunk p n hstream hfit hpos =>
      exact ⟨replay_getLast? hpos p _ s, cache_set_same s.cache p, fun j hj => cache_set_other s.cache p hj⟩
    | frozen hrun => simp [hp, Phase.running] at hrun
    | header _ hheader => simp [hp] at hheader
    | endMark => cases ht
    | raised => cases ht
  · cases step_move hturn h with
    | chunk p n hstream => simp [hstream] at hno
    | frozen | header | endMark | raised => rfl

end Sys2Proof.Machine
end

section
/-! The errors (R141, R183, R184, R186 to R188): which record the stream step chooses, what an error entry writes, and which step
raises which cause. -/

namespace Sys2Proof

/-- What was decoded of some bytes is decoded of its own encoding alone: the bytes behind a chunk do not count (R121). -/
theorem decodeChunk_encode_of_decodeChunk {bs : List Byte} {i : Instr} (h : decodeChunk bs = .ok i) :
    decodeChunk (encode i) = .ok i := by
  obtain ⟨hwf, hk, -⟩ := decodeChunk_ok h
  rw [← decodeChunk_encode hwf hk [], List.append_nil]

namespace Machine

/-! ### The chunk at the cursor (R141, R183, R184) -/

/-- Every chunk fits into the window of the stream step (R52, R86). -/
theorem lengthByTable_le (b : Nat) : lengthByTable b ≤ 5 := by
  unfold lengthByTable
  split_ifs <;> omega

section StreamFetched
variable {s : State} {bs : List Byte} (hf : fetchRecord .stream s = some bs)
include hf

/-- Where a byte is left, the fetch begins with the leading byte at the cursor. -/
theorem streamFetched_leading (hleft : s.pc < s.inLen) :
    ∃ b0 rest, bs = b0 :: rest ∧ chunkLength b0 = lengthByTable (inByte s s.pc) := by
  obtain ⟨-, hlen, -⟩ := fetchRecord_some hf
  rw [Place.window] at hlen
  obtain ⟨b0, rest, rfl⟩ := List.exists_cons_of_length_pos (l := bs) (by omega)
  refine ⟨b0, rest, rfl, ?_⟩
  rw [chunkLength_eq_lengthByTable]
  exact congrArg lengthByTable (fetched_toNat hf (Nat.zero_lt_succ _))

/-- At the end of the input nothing is fetched, and the end marker is missing (R184). -/
theorem streamFetched_endMarkerMissing (hend : s.pc = s.inLen) : decodeChunk bs = .reject .endMarkerMissing := by
  obtain ⟨-, hlen, -⟩ := fetchRecord_some hf
  obtain rfl : bs = [] := List.eq_nil_of_length_eq_zero (by omega)
  rfl

/-- A chunk that does not fit into the input is cut short (R183). -/
theorem streamFetched_chunkTruncated (hleft : s.pc < s.inLen) (hcut : ¬ Avail s s.pc (lengthByTable (inByte s s.pc))) :
    decodeChunk bs = .reject (.chunkTruncated (lengthByTable (inByte s s.pc)) (s.inLen - s.pc)) := by
  obtain ⟨b0, rest, rfl, hneed⟩ := streamFetched_leading hf hleft
  obtain ⟨-, hlen, -⟩ := fetchRecord_some hf
  have hmax := lengthByTable_le (inByte s s.pc)
  rw [Place.window, List.length_cons] at hlen
  have hpresent : rest.length + 1 = s.inLen - s.pc := by omega
  rw [decodeChunk_cut (by omega), hneed, hpresent]

/-- A chunk that fits is decoded, and the bytes its leading byte asks for are its encoding (R86, R99). -/
theorem streamFetched_chunk (hleft : s.pc < s.inLen) (hfit : Avail s s.pc (lengthByTable (inByte s s.pc))) :
    ∃ i, decodeChunk bs = .ok i ∧ Memory.readBytes s.inMem s.pc (lengthByTable (inByte s s.pc)) = some (encode i) := by
  obtain ⟨b0, rest, rfl, hneed⟩ := streamFetched_leading hf hleft
  obtain ⟨-, hlen, hbytes⟩ := fetchRecord_some hf
  have hmax := lengthByTable_le (inByte s s.pc)
  rw [Place.window] at hlen
  obtain ⟨i, hi⟩ := decodeChunk_of_length_le (b := b0) (rest := rest) (by rw [← List.length_cons (a := b0)]; omega)
  have henc : (encode i).length = lengthByTable (inByte s s.pc) :=
    (Laws.encode_length i).trans (decodedChunk_length hf hi)
  have hprefix := encode_prefix_of_decodeChunk hi
  refine ⟨i, hi, (Memory.readBytes_spec _ _ _ _).2 ⟨henc, fun k hk => ?_⟩⟩
  rw [hbytes k (by omega), List.prefix_iff_getElem?.1 hprefix k (henc ▸ hk), List.getElem?_eq_getElem]

end StreamFetched

/-- Settles O27: the marker test on the fetched bytes, then the chunk decoder's three answers. -/
theorem streamStepChoosesRecord : Obligations.StreamStepChoosesRecord := by
  unfold Obligations.StreamStepChoosesRecord
  intro s hphase hturn hinput hpc
  obtain ⟨bs, hf⟩ := fetchRecord_present (p := .stream) hpc ((Memory.present_iff _ _).2 hinput)
  have hmarkerTest := startsWithEndMarker_fetched hf
  have hchunk (hno : ¬ (Avail s s.pc 8 ∧ memRead s s.pc 8 = 1)) : decode .stream bs = decodeChunk bs :=
    decodeStream_of_noMarker (Bool.eq_false_iff.2 fun h => hno (hmarkerTest.1 h))
  rw [step_eq_runRecord hturn (.inr ⟨rfl, hphase⟩)]
  split_ifs with hmarker hend hfit
  · exact runRecord_of_decode hf (if_pos (hmarkerTest.2 hmarker))
  · exact ⟨_, runRecord_of_reject hf ((hchunk hmarker).trans (streamFetched_endMarkerMissing hf hend)),
      raiseError_errorEntry .endMarkerMissing s.pc s (by decide) (by decide)⟩
  · obtain ⟨i, hi, hread⟩ := streamFetched_chunk hf (by omega) hfit
    exact ⟨encode i, i, hread, decodeChunk_encode_of_decodeChunk hi, decodedChunk_length hf hi,
      runRecord_of_decode hf ((hchunk hmarker).trans hi)⟩
  · have hmax := lengthByTable_le (inByte s s.pc)
    refine ⟨_, runRecord_of_reject hf ((hchunk hmarker).trans (streamFetched_chunkTruncated hf (by omega) hfit)), ?_⟩
    exact raiseError_errorEntry .chunkTruncated s.pc s (by omega) (by unfold Avail at hfit; omega)

/-! ### Error entry (R186) -/

/-- The registers `expected` and `found` take a number modulo 2^64 (R32). -/
theorem raiseError_mod (c : ErrorCause) (off exp fnd : Nat) (s : State) :
    raiseError c off (exp % 2 ^ 64) (fnd % 2 ^ 64) s = raiseError c off exp fnd s := by
  have hmod (n : Nat) : BitVec.ofNat 64 (n % 2 ^ 64) = BitVec.ofNat 64 n := BitVec.eq_of_toNat_eq (Nat.mod_mod _ _)
  rw [raiseError, raiseError, hmod, hmod]

/-- The codes of a cause are a row of R181. -/
theorem ErrorCause.codes_listed (c : ErrorCause) :
    c.kindCode.toNat = 1 ∧ (c.code.toNat = 1 ∨ c.code.toNat = 2 ∨ c.code.toNat = 3 ∨ c.code.toNat = 4) ∨
    c.kindCode.toNat = 2 ∧ c.code.toNat = 5 := by
  cases c <;> decide

/-- Settles O35: of the engine's moves only error entry ends in ERROR, and there the engine is frozen. -/
theorem errorEntryIsPrecise : Obligations.ErrorEntryIsPrecise := by
  unfold Obligations.ErrorEntryIsPrecise
  intro s t hrun hturn h ht
  have hfrozen : t.phase.running = false := by rw [ht]; rfl
  refine ⟨?_, engineStep_frozen hfrozen⟩
  cases step_move hturn h with
  | frozen | chunk => cases hrun.symm.trans hfrozen
  | header | endMark => cases ht
  | raised c exp fnd =>
    refine ⟨_, _, exp % 2 ^ 64, fnd % 2 ^ 64, ?_, c.codes_listed⟩
    rw [← raiseError_mod]
    exact raiseError_errorEntry c s.pc s (Nat.mod_lt _ (by decide)) (Nat.mod_lt _ (by decide))

/-! ### The error record by its cause (R187) -/

/-- A record that enters ERROR is an INDEX of an empty slot (R159, R188). -/
theorem exec_enters_error {i : Instr} {s t : State} (h : exec i s = .next t) (hp : s.phase ≠ .error) (ht : t.phase = .error) :
    ∃ j, i = .index j ∧ s.cache[j] = .empty ∧ t = raiseError .cacheSlotEmpty s.pc j.val 0 s := by
  cases i with
  | index j =>
    cases hj : s.cache[j] with
    | empty =>
      rw [exec_index_empty hj] at h
      cases h
      exact ⟨j, rfl, hj, rfl⟩
    | full q =>
      rw [exec_index_full hj] at h
      cases h
      exact absurd ht hp
  | hdr | endMark => cases h; cases ht
  | rgb | rgba | diff | luma | run => cases h; exact absurd ht hp

/-- The leading byte of an INDEX is its slot number (R85). -/
theorem inByte_of_index {s : State} {n : Nat} {bs : List Byte} {j : Fin 64} (hread : Memory.readBytes s.inMem s.pc n = some bs)
    (hd : decodeChunk bs = .ok (.index j)) : inByte s s.pc = j.val := by
  obtain ⟨rest, rfl⟩ := encode_prefix_of_decodeChunk hd
  obtain ⟨hlen, hbytes⟩ := (Memory.readBytes_spec _ _ _ _).1 hread
  have hbyte : Memory.read s.inMem s.pc = some (BitVec.ofNat 8 j.val) := hbytes 0 (hlen ▸ Nat.zero_lt_succ _)
  have hj := j.isLt
  simp only [inByte, hbyte, BitVec.toNat_ofNat]
  omega

theorem inByte_lt (s : State) (k : Nat) : inByte s k < 256 := by
  unfold inByte
  split
  · exact BitVec.isLt _
  · decide

/-- `FoundMagic` is the magic only where its four bytes are there: a byte past IN_LEN packs as 0, no letter of it (R112). -/
theorem magic_of_foundMagicOf {s : State} (h : foundMagicOf s = 0x716F6966) :
    Avail s 0 4 ∧ inByte s 0 = 0x71 ∧ inByte s 1 = 0x6F ∧ inByte s 2 = 0x69 ∧ inByte s 3 = 0x66 := by
  have h0 := inByte_lt s 0
  have h1 := inByte_lt s 1
  have h2 := inByte_lt s 2
  have h3 := inByte_lt s 3
  unfold Avail
  simp only [foundMagicOf] at h
  split_ifs at h <;> omega

/-- A run under way is at the header or in the stream (R29). -/
theorem place_of_running {s : State} (hrun : s.phase.running = true) :
    ∃ p : Place, p = .header ∧ s.phase = .header ∨ p = .stream ∧ s.phase = .stream := by
  cases hp : s.phase with
  | header => exact ⟨.header, .inl ⟨rfl, rfl⟩⟩
  | stream => exact ⟨.stream, .inr ⟨rfl, rfl⟩⟩
  | idle | done | error => simp [hp, Phase.running] at hrun

/-- The input promised to a run is there (P3). -/
theorem State.Inv.inputThere {s : State} (hi : s.Inv) (hrun : s.phase.running = true) : InputThere s :=
  (Memory.present_iff _ _).1 (hi.present fun hidle => by simp [hidle, Phase.running] at hrun)

section ErrorEntry
variable {s t : State} {kind cause off exp fnd : Nat}

/-! What the registers of an error entry hold, as words of their widths (R32). -/

theorem ErrorEntry.kind_eq (h : ErrorEntry s t kind cause off exp fnd) : t.err.kind = BitVec.ofNat 2 kind := by
  rw [← h.kind, BitVec.ofNat_toNat, BitVec.setWidth_eq]

theorem ErrorEntry.cause_eq (h : ErrorEntry s t kind cause off exp fnd) : t.err.cause = BitVec.ofNat 3 cause := by
  rw [← h.cause, BitVec.ofNat_toNat, BitVec.setWidth_eq]

theorem ErrorEntry.expected_eq (h : ErrorEntry s t kind cause off exp fnd) : t.err.expected = BitVec.ofNat 64 exp := by
  rw [← h.expected, BitVec.ofNat_toNat, BitVec.setWidth_eq]

theorem ErrorEntry.found_eq (h : ErrorEntry s t kind cause off exp fnd) : t.err.found = BitVec.ofNat 64 fnd := by
  rw [← h.found, BitVec.ofNat_toNat, BitVec.setWidth_eq]

end ErrorEntry

/-- Settles O36: the raising outcomes of the HDR step (O25) and of the stream step (O27), and an INDEX of an empty slot. -/
theorem errorRecordByCause : Obligations.ErrorRecordByCause := by
  unfold Obligations.ErrorRecordByCause
  intro s t hi hrun hturn h ht
  have hinput : InputThere s := hi.inputThere hrun
  obtain ⟨p, ⟨-, hp⟩ | ⟨-, hp⟩⟩ := place_of_running hrun
  · obtain ⟨u, hu, houtcome⟩ := headerStepParsesOrRaises s hp (hi.atHeader hp).1 hturn hinput
    cases h.symm.trans hu
    split_ifs at houtcome with hmagic hshort
    · have hfour : 4 ≤ s.inLen := by simpa using hmagic.1
      exact .inr (.inl ⟨houtcome.cause_eq, houtcome.kind_eq, houtcome.offset, houtcome.expected_eq, houtcome.found, hfour,
        Nat.le_of_lt_succ hshort⟩)
    · obtain ⟨-, -, -, -, -, hstream, -⟩ := houtcome
      rw [hstream] at ht
      cases ht
    · refine .inl ⟨houtcome.cause_eq, houtcome.kind_eq, houtcome.offset, houtcome.expected_eq, houtcome.found,
        fun hfound => hmagic ?_⟩
      exact magic_of_foundMagicOf (by rw [← houtcome.found, hfound]; rfl)
  · have hcursor := (hi.inStream hp).2
    have hchoice := streamStepChoosesRecord s hp hturn hinput hcursor
    split_ifs at hchoice with hmarker hend hfit
    · cases h.symm.trans hchoice
      cases ht
    · obtain ⟨u, hu, hentry⟩ := hchoice
      cases h.symm.trans hu
      exact .inr (.inr (.inr (.inl ⟨hentry.cause_eq, hentry.kind_eq, hentry.offset, hend, hentry.expected_eq,
        hentry.found_eq⟩)))
    · obtain ⟨bs, i, hread, hd, -, hstep⟩ := hchoice
      obtain ⟨j, rfl, -, rfl⟩ := exec_enters_error (hstep.symm.trans h) (by simp [hp]) ht
      have hbyte := inByte_of_index hread hd
      have hj := j.isLt
      refine .inr (.inr (.inr (.inr ⟨rfl, rfl, rfl, ?_, by omega, rfl⟩)))
      rw [raiseError_err, BitVec.toNat_ofNat, hbyte]
      omega
    · obtain ⟨u, hu, hentry⟩ := hchoice
      cases h.symm.trans hu
      unfold Avail at hfit
      exact .inr (.inr (.inl ⟨hentry.cause_eq, hentry.kind_eq, hentry.offset, hentry.expected, hentry.found, by omega,
        by omega⟩))

/-! ### CACHE_SLOT_EMPTY (R188) -/

/-- A run's step that enters ERROR ran an INDEX of an empty slot, or its record was rejected. -/
theorem step_enters_error {s t : State} (hrun : s.phase.running = true) (hturn : engineTurn s = true) (h : step s = .next t)
    (ht : t.phase = .error) : ∃ p bs, (p = .header ∧ s.phase = .header ∨ p = .stream ∧ s.phase = .stream) ∧
      fetchRecord p s = some bs ∧
      ((∃ j, decode p bs = .ok (.index j) ∧ s.cache[j] = .empty) ∨ ∃ e, t = raiseDecodeError e s) := by
  have hne : s.phase ≠ .error := fun hp => by simp [hp, Phase.running] at hrun
  obtain ⟨p, hp⟩ := place_of_running hrun
  rw [step_eq_runRecord hturn hp] at h
  obtain ⟨bs, hf, ⟨i, hd, hx⟩ | ⟨e, -, he⟩⟩ := runRecord_next h
  · obtain ⟨j, rfl, hempty, -⟩ := exec_enters_error hx hne ht
    exact ⟨p, bs, hp, hf, .inl ⟨j, hd, hempty⟩⟩
  · exact ⟨p, bs, hp, hf, .inr ⟨e, he⟩⟩

/-- Every rejection is a FormatError (R181). -/
theorem raiseDecodeError_kind (e : DecodeError) (s : State) : (raiseDecodeError e s).err.kind = 1 := by
  cases e <;> rfl

/-- Settles O37: a rejection has kind 1, so kind 2 comes of a record, and only of an INDEX of an empty slot. -/
theorem cacheSlotEmptyOnlyFromIndex : Obligations.CacheSlotEmptyOnlyFromIndex := by
  unfold Obligations.CacheSlotEmptyOnlyFromIndex
  intro s t hrun hturn h
  constructor
  · rintro ⟨ht, hkind, -⟩
    obtain ⟨p, bs, hp, hf, ⟨j, hd, hempty⟩ | ⟨e, rfl⟩⟩ := step_enters_error hrun hturn h ht
    · obtain ⟨-, rfl, -⟩ := decode_ok hd
      rcases hp with ⟨hheader, -⟩ | ⟨-, hstream⟩
      · cases hheader
      · exact ⟨hstream, bs, j, hf, hd, hempty⟩
    · rw [raiseDecodeError_kind] at hkind
      cases hkind
  · rintro ⟨hp, bs, n, hf, hd, hempty⟩
    rw [step_eq_runRecord hturn (.inr ⟨rfl, hp⟩), runRecord_of_decode hf hd, exec_index_empty hempty] at h
    cases h
    exact ⟨rfl, rfl, rfl⟩

end Machine

end Sys2Proof
end

section
/-! Launch, hazards and progress (R212 to R222): the engine always has a next step and its run ends, an INDEX sees the write-back of the
chunk before it, and the host loads, starts, waits, or is refused. -/

namespace Sys2Proof.Machine

/-! ### Progress of the engine (R147, R222) -/

/-- With the invariant a run under way has a next step: its fetch succeeds. -/
theorem State.Inv.exists_step {s : State} (hi : s.Inv) (hturn : engineTurn s = true) (hrun : s.phase.running = true) :
    ∃ t, step s = .next t := by
  obtain ⟨p, hp⟩ := place_of_running hrun
  obtain ⟨bs, hf⟩ := fetchRecord_present (p := p) (hi.pc_le_inLen hrun) ((Memory.present_iff _ _).2 (hi.inputThere hrun))
  rw [step_eq_runRecord hturn hp]
  exact runRecord_next_of_fetched hf

/-- Settles O42: a run under way fetches and runs a record, and between runs the state is frozen. -/
theorem engineIsNeverStuck : Obligations.EngineIsNeverStuck := by
  unfold Obligations.EngineIsNeverStuck
  intro s hi hturn
  cases hrun : s.phase.running with
  | true => exact hi.exists_step hturn hrun
  | false => exact ⟨s, by rw [step_engine hturn, engineStep_frozen hrun]⟩

/-- How many steps the run has left at most: one for the header, one for each byte ahead, and one that ends it. -/
def State.stepsLeft (s : State) : Nat :=
  match s.phase with
  | .header => 2 + (s.inLen - 14)
  | .stream => 1 + (s.inLen - s.pc)
  | .idle => 0
  | .done => 0
  | .error => 0

/-- Each move of a run brings its end nearer: it consumes a byte or ends the run. -/
theorem EngineMove.stepsLeft_lt {s t : State} (hm : EngineMove s t) (hrun : s.phase.running = true) :
    t.stepsLeft < s.stepsLeft := by
  cases hm with
  | frozen hstop => simp [hrun] at hstop
  | header h hp hfit => simp only [State.stepsLeft, hp]; omega
  | endMark hp => simp only [State.stepsLeft, hp]; omega
  | chunk p n hp hfit =>
    have hpos := lengthByTable_pos (inByte s s.pc)
    simp only [State.stepsLeft, replay_phase, replay_pc, replay_inLen, hp]
    omega
  | raised c exp fnd =>
    cases hp : s.phase with
    | header | stream => simp only [State.stepsLeft, raiseError_phase, hp]; omega
    | idle | done | error => simp [hp, Phase.running] at hrun

/-- No move of a run goes back to IDLE (R29). -/
theorem EngineMove.running_or_ended {s t : State} (hm : EngineMove s t) (hrun : s.phase.running = true) :
    t.phase.running = true ∨ t.phase.ended = true := by
  cases hm with
  | frozen => exact .inl hrun
  | header => exact .inl rfl
  | endMark => exact .inr rfl
  | chunk => exact .inl hrun
  | raised => exact .inr rfl

/-- A run that stands alone ends within its steps left. -/
theorem State.Inv.exists_ended {s : State} (hi : s.Inv) (hhost : s.host = [])
    (hp : s.phase.running = true ∨ s.phase.ended = true) :
    ∃ k t, k ≤ s.stepsLeft ∧ runSteps k s = .next t ∧ t.phase.ended = true := by
  induction hleft : s.stepsLeft using Nat.strong_induction_on generalizing s with
  | _ left ih =>
    rcases hp with hrun | hend
    · have hturn := engineTurn_nil hhost
      obtain ⟨u, hstep⟩ := hi.exists_step hturn hrun
      have hm := step_move hturn hstep
      have hless := hm.stepsLeft_lt hrun
      obtain ⟨k, t, hk, hrest, ht⟩ := ih _ (hleft ▸ hless) (hm.inv hi) (hm.sameSurroundings.host.trans hhost)
        (hm.running_or_ended hrun) rfl
      exact ⟨k + 1, t, by omega, by rw [runSteps_succ k hstep, hrest], ht⟩
    · exact ⟨0, s, Nat.zero_le _, runSteps_zero s, hend⟩

/-- A launched run has the invariant. -/
theorem LaunchPremises.inv {s : State} (h : LaunchPremises s) : s.Inv where
  memory := h.memory
  sampled _ := h.sampled
  present _ := h.present
  atHeader _ := ⟨h.cursor, h.startOut⟩
  inStream hp := by simp [h.started] at hp
  atDone hp := by simp [h.started] at hp
  atError hp := by simp [h.started] at hp
  counted _ := by simp [h.startCount, h.startOut]
  slotHash _ i p hfull := by
    rw [h.startCache, emptyCache_get] at hfull
    cases hfull
  fresh _ _ := ⟨h.startPrev, h.startCache⟩
  last _ hout := absurd h.startOut hout

/-- Settles O41: at the header the steps left are the bound of R222. -/
theorem everyRunEnds : Obligations.EveryRunEnds := by
  unfold Obligations.EveryRunEnds
  intro s h
  have hleft : s.stepsLeft = 2 + (s.inLen - 14) := by simp only [State.stepsLeft, h.started]
  rw [← hleft]
  exact h.inv.exists_ended h.hostWaits (.inl (by simp [h.started, Phase.running]))

/-! ### An INDEX just after a chunk (R219) -/

/-- INDEX of the slot a replay wrote back replays that pixel once more. -/
theorem exec_index_replay (p : Pixel) (n len : Nat) (s : State) :
    exec (.index (pixelHash p)) (replay p n len s) = .next (replay p 1 1 (replay p n len s)) :=
  exec_index_full (cache_set_same s.cache p)

/-- Replaying the same pixel again leaves the cache as it is (R159, R163). -/
theorem replay_replay_cache (p : Pixel) (n len n' len' : Nat) (s : State) :
    (replay p n' len' (replay p n len s)).cache = (replay p n len s).cache :=
  cache_set_of_full (cache_set_same s.cache p)

/-- Settles O22: a chunk that completes is a replay, and the INDEX finds the slot that the replay wrote back. -/
theorem indexSeesWriteBackJustBefore : Obligations.IndexSeesWriteBackJustBefore := by
  unfold Obligations.IndexSeesWriteBackJustBefore
  refine ⟨fun i s t hw hk _ h ht => ?_, fun r g b a s => ?_⟩
  · rcases exec_chunk_cases hw hk h with ⟨p, n, hpos, -, rfl⟩ | ⟨j, -, -, rfl⟩
    · exact ⟨replay_getLast? hpos p _ s, _, exec_index_replay p n _ s, rfl, rfl, rfl, rfl,
        replay_replay_cache p n _ 1 1 s, rfl⟩
    · exact absurd rfl ht
  · exact ⟨_, _, rfl, exec_index_replay _ 1 5 s, by simp, rfl, replay_replay_cache _ 1 5 1 1 s, rfl⟩

/-! ### Loading and launching from the host (R212, R214) -/

/-- A byte of IN at the head of the queue is placed between runs. -/
theorem step_writeIn {s : State} {rest : List HostAct} {a : Nat} {b : Byte} (hrun : s.phase.running = false)
    (hhost : s.host = .writeIn a b :: rest) :
    step s = .next { s with host := rest, inMem := Memory.write s.inMem a b } := by
  rw [step_hostAct hhost nofun nofun]
  simp [hostStep, hostWriteIn, hrun]

/-- Settles O53: the byte is written into IN, whose laws say what it reads as. -/
theorem hostPlacesOneByte : Obligations.HostPlacesOneByte := by
  unfold Obligations.HostPlacesOneByte
  intro s rest a b hrun hhost hwf
  exact ⟨_, step_writeIn hrun hhost, Memory.read_write_same _ a b, fun _ hk => Memory.read_write_other _ b hk,
    Memory.wf_write a b hwf⟩

/-- Between runs the host loads a byte sequence in as many steps as it has bytes. -/
theorem runSteps_loadFrom (bs : List Byte) (k a : Nat) (rest : List HostAct) {s : State} (hrun : s.phase.running = false)
    (hhost : s.host = loadFrom a bs ++ rest) :
    runSteps (bs.length + k) s = runSteps k { s with host := rest, inMem := Memory.writeAll s.inMem a bs } := by
  induction bs generalizing a s with
  | nil => rw [List.length_nil, Nat.zero_add, ← show s.host = rest from hhost]; rfl
  | cons b bs ih =>
    have hlen : (b :: bs).length + k = bs.length + k + 1 := by rw [List.length_cons]; omega
    rw [hlen, runSteps_succ _ (step_writeIn hrun hhost)]
    exact ih (a + 1) hrun rfl

/-- START at the head of the queue begins the run between runs (R212). -/
theorem step_start {s : State} {rest : List HostAct} (hrun : s.phase.running = false) (hhost : s.host = .writeReg 0 1 :: rest)
    (hpresent : Memory.present s.inMem s.inLenReg = true) : step s = .next (startRun { s with host := rest }) := by
  rw [step_hostAct hhost nofun nofun]
  exact hostWriteCtrl_start hrun hpresent

/-- START with nothing pending behind it launches a run (P1, P3, P4). -/
theorem startRun_launchPremises {s : State} (hhost : s.host = []) (hwf : Memory.wf s.inMem = true)
    (hpresent : Memory.present s.inMem s.inLenReg = true) : LaunchPremises (startRun s) :=
  ⟨rfl, rfl, rfl, rfl, rfl, rfl, hhost, rfl, hwf, hpresent⟩

/-- An input loaded from offset 0 reads as the bytes loaded, and holds no byte past them. -/
theorem Memory.read_loaded_eq (bs : List Byte) (k : Nat) : Memory.read (Memory.writeAll [] 0 bs) k = bs[k]? := by
  by_cases hk : k < bs.length
  · rw [Memory.read_loaded bs hk, List.getElem?_eq_getElem hk]
  · rw [Memory.read_writeAll, if_neg (by omega), Memory.read_nil, List.getElem?_eq_none (by omega)]

/-- Settles O54: the load, then the write of IN_LEN, then START. -/
theorem launchFromReset : Obligations.LaunchFromReset := by
  unfold Obligations.LaunchFromReset
  intro bs hwidth
  have hthere : ∀ k < bs.length, ∃ b, Memory.read (Memory.writeAll [] 0 bs) k = some b :=
    fun _ hk => ⟨_, Memory.read_loaded bs hk⟩
  have hpresent := (Memory.present_iff _ _).2 hthere
  rw [runSteps_loadFrom bs 2 0 [.writeReg 2 bs.length, .writeReg 0 1] rfl rfl,
    runSteps_succ 1 (hostWritesInLen _ _ _ rfl rfl hthere hwidth), runSteps_succ 0 (step_start rfl rfl hpresent)]
  exact ⟨_, rfl, startRun_launchPremises rfl (Memory.wf_writeAll bs 0 rfl) hpresent, rfl, Memory.read_loaded_eq bs⟩

/-! ### Refusals and waits (R215, R216, R218) -/

/-- Where a byte is missing IN does not have as many bytes as that. -/
theorem Memory.present_eq_false {m : Memory} {k n : Nat} (hk : k < n) (hread : Memory.read m k = none) :
    Memory.present m n = false := by
  refine Bool.eq_false_iff.2 fun hpresent => ?_
  obtain ⟨b, hb⟩ := (Memory.present_iff m n).1 hpresent k hk
  cases hread.symm.trans hb

/-- A write of register 0 is a write of CTRL (R36). -/
theorem hostStep_writeCtrl (v : Nat) (s : State) : hostStep (.writeReg 0 v) s = hostWriteCtrl v s := rfl

/-- A write of register 2 is a write of IN_LEN (R36). -/
theorem hostStep_writeInLen (v : Nat) (s : State) : hostStep (.writeReg 2 v) s = hostWriteInLen v s := rfl

/-- The registers but CTRL and IN_LEN are read-only (R36, R218). -/
theorem hostWriteReg_readOnly {n : Nat} (hn : n = 1 ∨ 3 ≤ n ∧ n ≤ 13) (v : Nat) (s : State) :
    hostWriteReg n v s = .refused .hostWriteReadOnly := by
  rcases hn with rfl | ⟨hlo, hhi⟩
  · rfl
  · interval_cases n <;> rfl

/-- Settles O48: each write meets the test of R218 that refuses it. -/
theorem hostActsOutsideTheModelAreRefused : Obligations.HostActsOutsideTheModelAreRefused := by
  unfold Obligations.HostActsOutsideTheModelAreRefused
  intro s rest
  refine ⟨fun a b hrun hhost => ?_, fun n v hrun hn hhost => ?_, fun n v hn hhost => ?_, fun v k hrun hk hread hhost => ?_,
    fun v k hrun hodd hk hread hhost => ?_, fun v hrun hthere hwide hhost => ?_⟩ <;> rw [step_hostAct hhost nofun nofun]
  · simp [hostStep, hostWriteIn, hrun]
  · rcases hn with rfl | rfl
    · simp [hostStep_writeCtrl, hostWriteCtrl, hrun]
    · simp [hostStep_writeInLen, hostWriteInLen, hrun]
  · exact hostWriteReg_readOnly hn v _
  · simp [hostStep_writeInLen, hostWriteInLen, hrun, Memory.present_eq_false hk hread]
  · simp [hostStep_writeCtrl, hostWriteCtrl, hrun, hodd, Memory.present_eq_false hk hread]
  · simp [hostStep_writeInLen, hostWriteInLen, hrun, (Memory.present_iff _ _).2 hthere, hwide]

/-- Settles O52: a wait makes it the engine's turn while it lasts, and is dropped afterwards. -/
theorem hostWaitsForTheEnd : Obligations.HostWaitsForTheEnd := by
  unfold Obligations.HostWaitsForTheEnd
  refine fun s rest => ⟨fun hhost => ⟨fun hrun => ?_, fun hrun => ?_⟩, fun n hhost => ⟨fun hrun hbefore => ?_, fun hover => ?_⟩⟩
  · exact step_engine (by simp [engineTurn, hhost, hrun])
  · exact step_host hhost (by simp [engineTurn, hhost, hrun])
  · exact step_engine (by simp [engineTurn, hhost, hrun, hbefore])
  · refine step_host hhost ?_
    rcases hover with hrun | hreached
    · simp [engineTurn, hhost, hrun]
    · simp [engineTurn, hhost, hreached]

end Sys2Proof.Machine
end
